-- ==== Sys2Proof/Word.lean ====
section
/-! DEFINITION. The two word types of the hardware (00_scope.md rule R4: data width 8 bits, `pc` width 16 bits). -/

namespace Sys2Proof

/-- One byte: a register, a RAM cell, a code byte, an IRAM address (rule R4, rule R41). -/
abbrev Byte := BitVec 8

/-- A 16-bit value: the program counter, a code address, the data pointer (rule R4). -/
abbrev Word := BitVec 16

end Sys2Proof
end

