-- ==== Sys2Proof/Machine/State.lean ====
section
/-! DEFINITION. The machine's state as plain data (10_state.md), the reasons a step could stop, and the state after
reset (10_state.md section 7). -/

namespace Sys2Proof.Machine

/-- A memory: (address, byte) pairs in one canonical form (`Memory.wf` in Machine/Memory.lean). -/
abbrev Memory := List Host.Cell

/-- The sticky error register's values (10_state.md rule R24, 60_exceptions.md rule R170). They are symbolic: the
source gives no numbers (notes/assumptions/22.md). `genericFailure`, `nullCore` and `xdataOutOfRange` are in the
closed set and no step raises them (60_exceptions.md rules R173, R174). -/
inductive Err where
  | ok
  | genericFailure
  | nullCore
  | codeOutOfRange
  | unknownInstruction
  | xdataOutOfRange
deriving DecidableEq, Repr

/-- The operand scratch buffer `OP[0..3]` (10_state.md rule R26). -/
structure OperandBuffer where
  b0 : Byte
  b1 : Byte
  b2 : Byte
  b3 : Byte
deriving DecidableEq, Repr

/-- The event `HookW(address, value)` that a hooked store shows to a peripheral write hook (20_memory.md rule R50). -/
structure HookEvent where
  addr : Byte
  value : Byte
deriving DecidableEq, Repr

/-- Everything the spec gives the machine (10_state.md section 1). `R0` to `R7` of the four banks and `DPTR` are IRAM
bytes, not storage of their own (rules R19, R20). -/
structure State where
  /-- Accumulator (rule R10). -/
  a : Byte
  /-- Register `B` (rule R11). -/
  b : Byte
  /-- Stack pointer (rule R12); no instruction uses it. -/
  sp : Byte
  /-- Flag word (rule R14). -/
  psw : Byte
  /-- Program counter (rule R13). -/
  pc : Word
  /-- Internal data RAM, addresses 0 to 255 (rule R18). -/
  iram : Memory
  /-- External data RAM, offsets `0 .. xlen-1` (rule R22). -/
  xdata : Memory
  /-- `XLEN`: the external data RAM's length, set by the host (rules R22, R36). -/
  xlen : Nat
  /-- The code store's contents, addresses `0 .. codeLen-1` (rule R23). -/
  code : Memory
  /-- `CODE_LEN`: the code store's bound (20_memory.md rule R46). -/
  codeLen : Nat
  /-- The sticky error register `ERR` (rule R24). -/
  err : Err
  /-- The jump flag `JF` (rule R25). -/
  jf : Bool
  /-- The operand scratch buffer (rule R26). -/
  op : OperandBuffer
  /-- `WHOOK`: the IRAM addresses with a peripheral write hook (rule R28), strictly rising. -/
  whook : List Byte
  /-- `RHOOK`: the IRAM addresses with a peripheral read hook (rule R28), strictly rising; nothing reads it. -/
  rhook : List Byte
  /-- The output trace of hook events, oldest first: an observation that no rule reads (20_memory.md rules R50, R52;
  notes/assumptions/14.md). -/
  trace : List HookEvent
deriving DecidableEq, Repr

/-- The fault classes of 60_exceptions.md rule R190 (a). No step answers `Host.Outcome.fault`: entering an error is a
next state with `ERR` set (rule R176), and a step of a stopped core is a no-op (rule R178). `Safety.faultOf` reads
the class off `ERR`. See notes/assumptions/18.md (safe: no run is cut short). -/
inductive Fault where
  /-- A fetch past the code store's bound, or the address-overflow check (rule R171). Recorded in `ERR` by `raise`. -/
  | codeOutOfRange
  /-- An undefined opcode (rule R172). Recorded in `ERR` by `raise`. -/
  | unknownInstruction
deriving DecidableEq, Repr

/-- Why no meaning is given. -/
inductive Refusal where
  /-- An arm of `exec` whose instruction has no meaning yet; no arm raises it now (safe). -/
  | notModelled (mnemonic : String)
  /-- Raised by the host's register accessors for a number above 7: "fails with an out-of-range error"
  (70_reset_and_hazards.md rule R206); which code it reports is not said, and no instruction can raise it (safe;
  notes/assumptions/20.md). -/
  | hostRegisterOutOfRange
deriving DecidableEq, Repr

namespace State

/-! ### One named update per field that something writes -/

def setA (v : Byte) (s : State) : State := { s with a := v }
def setPc (v : Word) (s : State) : State := { s with pc := v }
def setIram (m : Memory) (s : State) : State := { s with iram := m }
def setXdata (m : Memory) (s : State) : State := { s with xdata := m }
def setErr (e : Err) (s : State) : State := { s with err := e }
def setJf (v : Bool) (s : State) : State := { s with jf := v }
def setOp (v : OperandBuffer) (s : State) : State := { s with op := v }
def pushEvent (e : HookEvent) (s : State) : State := { s with trace := s.trace ++ [e] }

/-- The state right after power-on, before the host has configured anything (10_state.md rules R31, R32, R36;
70_reset_and_hazards.md rule R201). `A`, `B`, `SP`, `PSW`, `pc`, `ERR`, empty hook sets and `XLEN = 0` are the spec's;
`JF = 0` is decision D6. Model choices where the spec leaves the value open: IRAM all zero (notes/assumptions/5.md),
`OP` all zero (6.md), no external data (7.md), no code store loaded (8.md), an empty trace (14.md). -/
def reset : State where
  a := 0
  b := 0
  sp := 0
  psw := 0
  pc := 0
  iram := []
  xdata := []
  xlen := 0
  code := []
  codeLen := 0
  err := .ok
  jf := false
  op := ⟨0, 0, 0, 0⟩
  whook := []
  rhook := []
  trace := []

end State

end Sys2Proof.Machine
end

