-- ==== Sys2Proof/Machine/Flags.lean ====
section
/-! DEFINITION. The fields of the flag word `PSW` (10_state.md rules R14 to R17). No instruction computes a flag
(43_alu_and_bit.md rule R154 (g)); the hardware reads only the bank-select field. -/

namespace Sys2Proof.Machine

/-- Carry, bit 7 (rule R14). -/
def pswCY (psw : Byte) : Bool := psw.getLsbD 7
/-- Auxiliary carry, bit 6 (rule R14). -/
def pswAC (psw : Byte) : Bool := psw.getLsbD 6
/-- User flag 0, bit 5 (rule R14). -/
def pswF0 (psw : Byte) : Bool := psw.getLsbD 5
/-- Register-bank-select, bits 4:3 with `PSW[3]` the low bit (rules R14, R15; bit order: decision D4,
notes/assumptions/4.md). -/
def pswBank (psw : Byte) : BitVec 2 := psw.extractLsb' 3 2
/-- Overflow, bit 2 (rule R14). -/
def pswOV (psw : Byte) : Bool := psw.getLsbD 2
/-- User-defined flag, bit 1 (rule R14). -/
def pswF1 (psw : Byte) : Bool := psw.getLsbD 1
/-- Parity, bit 0 (rule R14); a plain bit, not recomputed from `A` (rule R16). -/
def pswP (psw : Byte) : Bool := psw.getLsbD 0

/-- The flag word with the given fields (the layout of rule R14), for a host that prepares `PSW` before a run
(70_reset_and_hazards.md rule R208). -/
def pswOfFields (cy ac f0 : Bool) (rs : BitVec 2) (ov f1 p : Bool) : Byte :=
  (BitVec.ofBool cy ++ BitVec.ofBool ac ++ BitVec.ofBool f0 ++ rs
    ++ BitVec.ofBool ov ++ BitVec.ofBool f1 ++ BitVec.ofBool p).setWidth 8

end Sys2Proof.Machine
end

