-- ==== Sys2Proof/Config.lean ====
section
/-! DEFINITION. What the platform or an implementation fixes and no rule of behaviour reads (00_scope.md rule R4).
The parameters that a step does read (`CODE`, `CODE_LEN`, `XLEN`, `WHOOK`) are fields of `Machine.State` that no
step changes, so that every claim is quantified over them (notes/assumptions/7.md, 8.md, 15.md). -/

namespace Sys2Proof.Config

/-- The number of bytes of internal data RAM (rule R18: "fixed-size array of 256 bytes, addressed 0x00-0xFF"). -/
def iramSize : Nat := 256

/-- The largest code bound a 16-bit code address can use (rule R4: `0 <= CODE_LEN <= 65536`). -/
def maxCodeLen : Nat := 65536

/-- FREE VALUE (notes/assumptions/17.md): how far the declared cycle cost of a defined opcode lies above 1.
The source gives no cost; rule R4 leaves `CYCLES` open subject to `CYCLES[op] >= 1`. -/
opaque cyclesAbove : Byte → Nat

end Sys2Proof.Config
end

