-- ==== Sys2Proof/Syntax.lean ====
section
/-! DEFINITION. The instruction set as syntax: thirteen instruction kinds (00_scope.md rule R2), one constructor per
row of spec/opcode_table.json. A field is exactly as wide as the encoding's field (30_encoding.md rules R75 to R80). -/

namespace Sys2Proof

/-- An instruction with its decoded fields (30_encoding.md rule R81). -/
inductive Instr where
  /-- `NOP` (rule R110). -/
  | nop
  /-- `LJMP addr16` (rule R111). -/
  | ljmp (addr : Word)
  /-- `MOV direct,#data` (rule R130). -/
  | movDirectImm (direct data : Byte)
  /-- `MOV Rn,#data` (rule R131); `n = opcode[2:0]`. -/
  | movRnImm (n : BitVec 3) (data : Byte)
  /-- `SJMP rel` (rule R112); `rel` is the raw operand byte, read as two's complement by rule R78. -/
  | sjmp (rel : Byte)
  /-- `MOV DPTR,#data16` (rule R132). -/
  | movDptrImm (data : Word)
  /-- `INC DPTR` (rule R150). -/
  | incDptr
  /-- `CLR bit` (rule R151); the operand is an IRAM byte address (rule R80). -/
  | clrBit (direct : Byte)
  /-- `SETB bit` (rule R152); the operand is an IRAM byte address (rule R80). -/
  | setbBit (direct : Byte)
  /-- `DJNZ Rn,rel` (rule R113); `n = opcode[2:0]`. -/
  | djnz (n : BitVec 3) (rel : Byte)
  /-- `CLR A` (rule R153). -/
  | clrA
  /-- `MOVX @DPTR,A` (rule R133). -/
  | movxDptrA
  /-- `MOV @Ri,A` (rule R134); `i = opcode[0]`. -/
  | movRiA (i : BitVec 1)
deriving DecidableEq, Repr

/-- The thirteen instruction kinds (rule R2): what a descriptor's handler reference selects (10_state.md rule R27). -/
inductive Kind where
  | nop | ljmp | movDirectImm | movRnImm | sjmp | movDptrImm | incDptr
  | clrBit | setbBit | djnz | clrA | movxDptrA | movRiA
deriving DecidableEq, Repr

end Sys2Proof
end

