-- ==== Sys2Proof/Decode.lean ====
section
/-! DEFINITION. The descriptor table, the decoder (total on any bytes, rejecting by name) and the encoder
(30_encoding.md). The opcode byte values are general knowledge (rule R81, decision D1; notes/assumptions/1.md). -/

namespace Sys2Proof

/-! ### Bit fields and byte order -/

/-- `(h << 8) | l` (00_scope.md section 5); 16-bit immediates are big-endian (20_memory.md rule R42). -/
def word16 (h l : Byte) : Word := (h.setWidth 16 <<< 8) ||| l.setWidth 16

/-- `hi8(w) = w[15:8]` (00_scope.md section 5). -/
def hi8 (w : Word) : Byte := w.extractLsb' 8 8

/-- `lo8(w) = w[7:0]` (00_scope.md section 5). -/
def lo8 (w : Word) : Byte := w.extractLsb' 0 8

/-- `sext_16(v)`: the byte read as two's complement, as a 16-bit value (00_scope.md section 5, rule R78). -/
def sext16 (v : Byte) : Word := v.signExtend 16

/-- The register field `n = opcode[2:0]` (rule R76). -/
def regField (op : Byte) : BitVec 3 := op.extractLsb' 0 3

/-- The indirect-register field `i = opcode[0]` (rule R77). -/
def ptrField (op : Byte) : BitVec 1 := op.extractLsb' 0 1

/-! ### The descriptor table -/

/-- One row of the opcode map (rule R81): the opcodes `op` with `op & mask = bits`, their operand length `L`, the
mnemonic text (DESIGN CHOICE: rule R86, notes/assumptions/27.md) and the handler reference (10_state.md rule R27). -/
structure Descriptor where
  mask : Byte
  bits : Byte
  operandLength : Nat
  kind : Kind
  mnemonic : String
deriving DecidableEq, Repr

/-- The thirteen rows of rule R81, occupying 28 opcodes. That a row has a mnemonic is the spec's; its spelling is a DESIGN
CHOICE of the model, safe since nothing reads it: the stored strings are not in the source (rule R86, gap N15), and the
model stores the spellings of rule R84 (notes/assumptions/27.md). -/
def descriptors : List Descriptor :=
  [ ⟨0xFF, 0x00, 0, .nop,          "NOP"⟩,
    ⟨0xFF, 0x02, 2, .ljmp,         "LJMP addr16"⟩,
    ⟨0xFF, 0x75, 2, .movDirectImm, "MOV direct,#data"⟩,
    ⟨0xF8, 0x78, 1, .movRnImm,     "MOV Rn,#data"⟩,
    ⟨0xFF, 0x80, 1, .sjmp,         "SJMP rel"⟩,
    ⟨0xFF, 0x90, 2, .movDptrImm,   "MOV DPTR,#data16"⟩,
    ⟨0xFF, 0xA3, 0, .incDptr,      "INC DPTR"⟩,
    ⟨0xFF, 0xC2, 1, .clrBit,       "CLR bit"⟩,
    ⟨0xFF, 0xD2, 1, .setbBit,      "SETB bit"⟩,
    ⟨0xF8, 0xD8, 1, .djnz,         "DJNZ Rn,rel"⟩,
    ⟨0xFF, 0xE4, 0, .clrA,         "CLR A"⟩,
    ⟨0xFF, 0xF0, 0, .movxDptrA,    "MOVX @DPTR,A"⟩,
    ⟨0xFE, 0xF6, 0, .movRiA,       "MOV @Ri,A"⟩ ]

/-- `DESC[op]` (10_state.md rule R27): `none` is the absent descriptor of an undefined opcode (rule R82). -/
def desc (op : Byte) : Option Descriptor :=
  descriptors.find? fun d => op &&& d.mask == d.bits

/-- The declared cycle cost of an opcode (10_state.md rule R27): zero for an undefined one, at least 1 and otherwise
free for a defined one (rule R83, 70_reset_and_hazards.md rule R204). No rule of behaviour reads it. -/
def cycleCost (op : Byte) : Nat :=
  match desc op with
  | none => 0
  | some _ => Config.cyclesAbove op + 1

/-! ### The decoder -/

/-- Why a byte sequence is no instruction. -/
inductive DecodeError where
  /-- There is no opcode byte. -/
  | empty
  /-- The opcode is one of the undefined values of rule R82. -/
  | undefinedOpcode (op : Byte)
  /-- Fewer operand bytes than the descriptor's operand length (rule R74). -/
  | truncated (op : Byte)
deriving DecidableEq, Repr

/-- The instruction of a kind, from its opcode byte and its operand bytes (rules R71 to R73, R75 to R80). -/
def build (k : Kind) (op operand0 operand1 : Byte) : Instr :=
  match k with
  | .nop => .nop
  | .ljmp => .ljmp (word16 operand0 operand1)
  | .movDirectImm => .movDirectImm operand0 operand1
  | .movRnImm => .movRnImm (regField op) operand0
  | .sjmp => .sjmp operand0
  | .movDptrImm => .movDptrImm (word16 operand0 operand1)
  | .incDptr => .incDptr
  | .clrBit => .clrBit operand0
  | .setbBit => .setbBit operand0
  | .djnz => .djnz (regField op) operand0
  | .clrA => .clrA
  | .movxDptrA => .movxDptrA
  | .movRiA => .movRiA (ptrField op)

/-- Reads one instruction off the front of a byte sequence and returns it with the bytes that follow it. The length
is decided by the first byte alone (rule R74). -/
def decode : List Byte → Except DecodeError (Instr × List Byte)
  | [] => .error .empty
  | op :: rest =>
    match desc op with
    | none => .error (.undefinedOpcode op)
    | some d =>
      if rest.length < d.operandLength then .error (.truncated op)
      else .ok (build d.kind op (rest.getD 0 0) (rest.getD 1 0), rest.drop d.operandLength)

/-! ### The encoder -/

/-- The bytes of an instruction at ascending code addresses, opcode first (rules R70, R81); a register number is added
to its group's first opcode (rules R76, R77). -/
def encode : Instr → List Byte
  | .nop => [0x00]
  | .ljmp addr => [0x02, hi8 addr, lo8 addr]
  | .movDirectImm direct data => [0x75, direct, data]
  | .movRnImm n data => [0x78 + n.setWidth 8, data]
  | .sjmp rel => [0x80, rel]
  | .movDptrImm data => [0x90, hi8 data, lo8 data]
  | .incDptr => [0xA3]
  | .clrBit direct => [0xC2, direct]
  | .setbBit direct => [0xD2, direct]
  | .djnz n rel => [0xD8 + n.setWidth 8, rel]
  | .clrA => [0xE4]
  | .movxDptrA => [0xF0]
  | .movRiA i => [0xF6 + i.setWidth 8]

/-- The operand length `L` of an instruction (column `L` of rule R81). -/
def operandLength : Instr → Nat
  | .nop => 0
  | .ljmp _ => 2
  | .movDirectImm _ _ => 2
  | .movRnImm _ _ => 1
  | .sjmp _ => 1
  | .movDptrImm _ => 2
  | .incDptr => 0
  | .clrBit _ => 1
  | .setbBit _ => 1
  | .djnz _ _ => 1
  | .clrA => 0
  | .movxDptrA => 0
  | .movRiA _ => 0

/-! ### Words as spec/opcode_table.json numbers their bits -/

/-- The three bytes an instruction can occupy, from a word numbered as spec/opcode_table.json numbers it: bits 7..0
are the opcode byte, bits 15..8 and 23..16 the operand bytes; every bit from `nbits` up is 0. -/
def tableWordBytes (nbits w : Nat) : List Byte :=
  let v := w % 2 ^ nbits
  [BitVec.ofNat 8 v, BitVec.ofNat 8 (v / 2 ^ 8), BitVec.ofNat 8 (v / 2 ^ 16)]

/-- The instruction the decoder reads from such a word, or none where it rejects it. -/
def decodeTableWord (nbits w : Nat) : Option Instr :=
  match decode (tableWordBytes nbits w) with
  | .ok (i, _) => some i
  | .error _ => none

end Sys2Proof
end

