-- ==== Sys2Proof/Machine/Memory.lean ====
section
/-! DEFINITION. Byte memories in canonical form: addresses strictly rising, no entry equal to what an unlisted address
reads as, so that equal memories are equal lists. Used for IRAM, XDATA and CODE (20_memory.md rules R40, R41). -/

namespace Sys2Proof.Machine

/-- What an unlisted address reads as (notes/assumptions/16.md). It picks the form, not the contents: every array of
bytes has a list that reads as it. What RESET lists is notes/assumptions/5.md. -/
def Memory.unlisted : Byte := 0

/-- Reads one byte. -/
def Memory.read (m : Memory) (addr : Nat) : Byte :=
  match m with
  | [] => Memory.unlisted
  | (k, v) :: rest => if k = addr then v else Memory.read rest addr

/-- Removes an address's entry. -/
def Memory.erase (m : Memory) (addr : Nat) : Memory := m.filter fun c => c.1 ≠ addr

/-- Puts an entry before the first entry with a higher address. -/
def Memory.insert (m : Memory) (addr : Nat) (v : Byte) : Memory :=
  match m with
  | [] => [(addr, v)]
  | c :: rest => if addr < c.1 then (addr, v) :: c :: rest else c :: Memory.insert rest addr v

/-- Writes one byte, keeping the canonical form. -/
def Memory.write (m : Memory) (addr : Nat) (v : Byte) : Memory :=
  if v = Memory.unlisted then m.erase addr else (m.erase addr).insert addr v

/-- Writes bytes at ascending addresses. -/
def Memory.writeBytes (m : Memory) (addr : Nat) (vs : List Byte) : Memory :=
  match vs with
  | [] => m
  | v :: rest => Memory.writeBytes (m.write addr v) (addr + 1) rest

/-- The canonical form. -/
abbrev Memory.wf (m : Memory) : Prop :=
  m.Pairwise (fun c d => c.1 < d.1) ∧ ∀ c ∈ m, c.2 ≠ Memory.unlisted

/-- Every listed address exists in a space of `size` bytes. -/
abbrev Memory.within (m : Memory) (size : Nat) : Prop := ∀ c ∈ m, c.1 < size

end Sys2Proof.Machine
end

