-- ==== Sys2Proof/Machine/Ops.lean ====
section
/-! DEFINITION. The shared operations over memory, the program counter and the error register: IRAM and XDATA access
(20_memory.md), `Jump` (40_step_cycle.md rule R99), entering an error and leaving it (60_exceptions.md rules R176, R179),
and what a step does after the handler (40_step_cycle.md rules R96, R97). -/

namespace Sys2Proof.Machine

/-- `IRAM[a]` (20_memory.md rule R48: every access succeeds, no side effect). -/
def readIram (s : State) (a : Byte) : Byte := s.iram.read a.toNat

/-- `IRAM[a] <- v`, the plain store: no hook event (20_memory.md rule R51, rows "no"). -/
def writeIram (a v : Byte) (s : State) : State := s.setIram (s.iram.write a.toNat v)

/-- `emit HookW(a, v)` if a write hook is present at `a` (20_memory.md rules R50, R52). -/
def notifyHook (a v : Byte) (s : State) : State :=
  if a ∈ s.whook then s.pushEvent ⟨a, v⟩ else s

/-- `DirectStore(a, v)`, the hooked store: the event first, then always the byte (20_memory.md rule R50). -/
def directStore (a v : Byte) (s : State) : State := writeIram a v (notifyHook a v s)

/-- `XDATA[d]`. No instruction reads XDATA (10_state.md rule R22); this is the host's view of its buffer. -/
def readXdata (s : State) (d : Word) : Byte := s.xdata.read d.toNat

/-- The external store: in range exactly when `d < XLEN`, otherwise dropped with no error and no other effect
(20_memory.md rule R49). -/
def writeXdata (d : Word) (v : Byte) (s : State) : State :=
  if d.toNat < s.xlen then s.setXdata (s.xdata.write d.toNat v) else s

/-- `Jump(t)`: `pc <- t; JF <- 1` (40_step_cycle.md rule R99). -/
def jump (t : Word) (s : State) : State := (s.setPc t).setJf true

/-- Error entry, `raise E`: `ERR <- E`; nothing else is saved or changed (60_exceptions.md rule R176). -/
def raise (e : Err) (s : State) : State := s.setErr e

/-- The reset operation, the only exit from an error (60_exceptions.md rule R179; 70_reset_and_hazards.md rule R200).
IRAM and `OP` become unspecified (10_state.md rules R34, R35): their new contents are ARGUMENTS, so that a claim about
reset holds for every contents. Hooks, the external RAM and the code store are unchanged (rule R36); the trace, which
is no state, keeps being appended to (rule R200 leaves this to the model). -/
def resetCore (iram : Memory) (op : OperandBuffer) (s : State) : State :=
  { s with a := 0, b := 0, sp := 0, psw := 0, pc := 0, err := .ok, jf := false, iram := iram, op := op }

/-- Stages 6 and 7 of a step, after the handler of an instruction with operand length `L` (40_step_cycle.md rules R96,
R97). The check reads `pc` as it stands after the handler, whether or not it jumped (decision D11,
notes/assumptions/11.md). -/
def finishStep (L : Nat) (s : State) : State :=
  if s.pc.toNat + 1 + L > 0xFFFF then raise .codeOutOfRange s
  else if s.jf then s.setJf false
  else s.setPc (s.pc + BitVec.ofNat 16 (1 + L))

end Sys2Proof.Machine
end

