-- ==== Sys2Proof/Machine/Operands.lean ====
section
/-! DEFINITION. The operand forms (42_moves.md, table of addressing modes): direct and immediate operands are instruction
fields as they stand; here are the register, register-indirect, data-pointer and relative forms. -/

namespace Sys2Proof.Machine

/-- `DPH_ADDR`: the IRAM address of the data pointer's HIGH byte (00_scope.md rule R4; conflict C6: not the ordinary
8051's assignment; notes/assumptions/24.md). -/
def dphAddr : Byte := 0x82

/-- `DPL_ADDR`: the IRAM address of the data pointer's LOW byte (00_scope.md rule R4). -/
def dplAddr : Byte := 0x83

/-- The IRAM address of `Rn` in a bank: `bank*8 + n` (10_state.md rule R19). -/
def regAddrIn (bank : BitVec 2) (n : BitVec 3) : Byte := bank.setWidth 8 * 8 + n.setWidth 8

/-- The IRAM address of `Rn`, the bank read from `PSW` at the access (10_state.md rules R15, R19). -/
def regAddr (s : State) (n : BitVec 3) : Byte := regAddrIn (pswBank s.psw) n

/-- `R[n]` (10_state.md rule R19). -/
def readReg (s : State) (n : BitVec 3) : Byte := readIram s (regAddr s n)

/-- `R[n] <- v`, no hook event (10_state.md rule R19; 20_memory.md rule R51). -/
def writeReg (n : BitVec 3) (v : Byte) (s : State) : State := writeIram (regAddr s n) v s

/-- The register that `@Ri` names: `R0` or `R1` (30_encoding.md rule R77). -/
def ptrReg (i : BitVec 1) : BitVec 3 := i.setWidth 3

/-- The effective address of `@Ri`: the content of `R[i]` (42_moves.md rule R134). -/
def indirectAddr (s : State) (i : BitVec 1) : Byte := readReg s (ptrReg i)

/-- `DPTR` (10_state.md rule R20). -/
def readDptr (s : State) : Word := word16 (readIram s dphAddr) (readIram s dplAddr)

/-- `DPTR <- w`: the high byte to 0x82, then the low byte to 0x83, no hook event (10_state.md rule R20; 20_memory.md
rule R51). -/
def writeDptr (w : Word) (s : State) : State := writeIram dplAddr (lo8 w) (writeIram dphAddr (hi8 w) s)

/-- `RelTarget(pc, rel)`, modulo 65536 (41_nop_and_jumps.md rule R114; the wrap is decision D12,
notes/assumptions/12.md). `pc` is the address of the jump's own opcode byte (40_step_cycle.md rule R100). -/
def relTarget (pc : Word) (rel : Byte) : Word := pc + 2 + sext16 rel

end Sys2Proof.Machine
end

