-- ==== Sys2Proof/Machine/Alu.lean ====
section
/-! DEFINITION. The execute stage of the arithmetic, clear and bit-named operations (43_alu_and_bit.md). None of them
writes a flag (rule R154 (g)). -/

namespace Sys2Proof.Machine

/-- `INC DPTR`, modulo 65536, no carry recorded (rule R150). -/
def execIncDptr (s : State) : Host.Outcome State Fault Refusal := .next (writeDptr (readDptr s + 1) s)

/-- `CLR bit`: the whole byte at the operand becomes 0x00 (rule R151; conflict C3, notes/assumptions/25.md). -/
def execClrBit (direct : Byte) (s : State) : Host.Outcome State Fault Refusal := .next (directStore direct 0x00 s)

/-- `SETB bit`: the whole byte at the operand becomes 0x01 (rule R152; conflict C3, notes/assumptions/25.md). -/
def execSetbBit (direct : Byte) (s : State) : Host.Outcome State Fault Refusal := .next (directStore direct 0x01 s)

/-- `CLR A` (rule R153): the parity bit is not updated. -/
def execClrA (s : State) : Host.Outcome State Fault Refusal := .next (s.setA 0x00)

end Sys2Proof.Machine
end

