-- ==== Sys2Proof/Machine/Control.lean ====
section
/-! DEFINITION. The execute stage of no-operation and control transfer (41_nop_and_jumps.md). A handler sees `pc` as the
address of its own opcode byte (40_step_cycle.md rule R100); stages 6 and 7 are the step's. -/

namespace Sys2Proof.Machine

/-- `NOP` (rule R110). -/
def execNop (s : State) : Host.Outcome State Fault Refusal := .next s

/-- `LJMP addr16` (rule R111). -/
def execLjmp (addr : Word) (s : State) : Host.Outcome State Fault Refusal := .next (jump addr s)

/-- `SJMP rel` (rules R112, R114). -/
def execSjmp (rel : Byte) (s : State) : Host.Outcome State Fault Refusal := .next (jump (relTarget s.pc rel) s)

/-- `DJNZ Rn,rel` (rule R113): the register is written in both cases; the test is on the new value. -/
def execDjnz (n : BitVec 3) (rel : Byte) (s : State) : Host.Outcome State Fault Refusal :=
  let v := readReg s n - 1#8
  let s' := writeReg n v s
  .next (if v = 0#8 then s' else jump (relTarget s.pc rel) s')

end Sys2Proof.Machine
end

