-- ==== Sys2Proof/Machine/Moves.lean ====
section
/-! DEFINITION. The execute stage of the data moves (42_moves.md). -/

namespace Sys2Proof.Machine

/-- `MOV direct,#data` (rule R130). -/
def execMovDirectImm (direct data : Byte) (s : State) : Host.Outcome State Fault Refusal :=
  .next (directStore direct data s)

/-- `MOV Rn,#data` (rule R131): the hook is the one at the resolved address. -/
def execMovRnImm (n : BitVec 3) (data : Byte) (s : State) : Host.Outcome State Fault Refusal :=
  .next (directStore (regAddr s n) data s)

/-- `MOV DPTR,#data16` (rule R132). -/
def execMovDptrImm (data : Word) (s : State) : Host.Outcome State Fault Refusal := .next (writeDptr data s)

/-- `MOVX @DPTR,A` (rule R133): an out-of-range write is dropped and `ERR` stays `OK`. -/
def execMovxDptrA (s : State) : Host.Outcome State Fault Refusal := .next (writeXdata (readDptr s) s.a s)

/-- `MOV @Ri,A` (rule R134). -/
def execMovRiA (i : BitVec 1) (s : State) : Host.Outcome State Fault Refusal :=
  .next (directStore (indirectAddr s i) s.a s)

end Sys2Proof.Machine
end

