-- ==== Sys2Proof/Machine/Dispatch.lean ====
section
/-! DEFINITION. The execute stage of a step (40_step_cycle.md rule R95): one arm per instruction, one meaning per arm. -/

namespace Sys2Proof.Machine

def exec (i : Instr) (s : State) : Host.Outcome State Fault Refusal :=
  match i with
  | .nop => Sys2Proof.Machine.execNop s
  | .ljmp addr => Sys2Proof.Machine.execLjmp addr s
  | .movDirectImm direct data => Sys2Proof.Machine.execMovDirectImm direct data s
  | .movRnImm n data => Sys2Proof.Machine.execMovRnImm n data s
  | .sjmp rel => Sys2Proof.Machine.execSjmp rel s
  | .movDptrImm data => Sys2Proof.Machine.execMovDptrImm data s
  | .incDptr => Sys2Proof.Machine.execIncDptr s
  | .clrBit direct => Sys2Proof.Machine.execClrBit direct s
  | .setbBit direct => Sys2Proof.Machine.execSetbBit direct s
  | .djnz n rel => Sys2Proof.Machine.execDjnz n rel s
  | .clrA => Sys2Proof.Machine.execClrA s
  | .movxDptrA => Sys2Proof.Machine.execMovxDptrA s
  | .movRiA ri => Sys2Proof.Machine.execMovRiA ri s

end Sys2Proof.Machine
end

