-- ==== Sys2Proof/Machine/Fetch.lean ====
section
/-! DEFINITION. Stages 1 to 4 of a step: terminal guard, opcode fetch, decode, operand fetch (40_step_cycle.md rules R91
to R94), over the code-fetch port (20_memory.md rules R46, R47). -/

namespace Sys2Proof.Machine

/-- `CodeFetch(addr, n)`: `n` bytes from `addr`, or `none` for `OutOfRange`; all or nothing (20_memory.md rule R46). -/
def codeFetch (s : State) (addr : Word) (n : Nat) : Option (List Byte) :=
  if addr.toNat + n > s.codeLen then none
  else some ((List.range n).map fun k => s.code.read (addr.toNat + k))

/-- The operand fetch of an instruction whose opcode is at `pc`: nothing for `L = 0`, else one fetch at
`(pc + 1) mod 65536` (20_memory.md rule R47, 40_step_cycle.md rule R94; decision D10, notes/assumptions/10.md). -/
def fetchOperands (s : State) (L : Nat) : Option (List Byte) :=
  if L = 0 then some [] else codeFetch s (s.pc + 1) L

/-- `OP[k] <- r[k]` for the fetched bytes; the other bytes of `OP` keep their values (40_step_cycle.md rule R94). -/
def storeOperands (r : List Byte) (s : State) : State :=
  s.setOp ⟨r.getD 0 s.op.b0, r.getD 1 s.op.b1, r.getD 2 s.op.b2, r.getD 3 s.op.b3⟩

/-- What stages 1 to 4 find. -/
inductive Front where
  /-- Stage 1: `ERR` is not `OK`. -/
  | terminal
  /-- Stage 2, 3 or 4 raised an error. -/
  | error (e : Err)
  /-- An instruction, its operand length and its fetched operand bytes. -/
  | ready (i : Instr) (L : Nat) (operands : List Byte)
deriving DecidableEq, Repr

/-- Stages 1 to 4. A failed fetch is `CodeOutOfRange` (decision D9, notes/assumptions/9.md); an undefined opcode is
`UnknownInstruction`, and no operand byte of it is fetched (rule R93). -/
def frontEnd (s : State) : Front :=
  if s.err = .ok then
    match codeFetch s s.pc 1 with
    | none => .error .codeOutOfRange
    | some r =>
      match desc (r.headD 0) with
      | none => .error .unknownInstruction
      | some d =>
        match fetchOperands s d.operandLength with
        | none => .error .codeOutOfRange
        | some ops => .ready (build d.kind (r.headD 0) (ops.getD 0 0) (ops.getD 1 0)) d.operandLength ops
  else .terminal

end Sys2Proof.Machine
end

