-- ==== Sys2Proof/Machine/Step.lean ====
section
/-! DEFINITION. One step (40_step_cycle.md rules R90 to R97): stages 1 to 4 by `frontEnd`, the handler by `exec`, stages
6 and 7 by `finishStep`. -/

namespace Sys2Proof.Machine

/-- One complete fetch-decode-execute cycle (rule R90). In the terminal state it changes nothing (rule R91). -/
def step (s : State) : Host.Outcome State Fault Refusal :=
  match frontEnd s with
  | .terminal => .next s
  | .error e => .next (raise e s)
  | .ready i L ops =>
    match exec i (storeOperands ops s) with
    | .next t => .next (finishStep L t)
    | .fault f => .fault f
    | .refused r => .refused r

/-- `s` with the instruction of a table word loaded where `step` fetches next: the opcode byte at `pc`, the operand
bytes from `(pc + 1) mod 65536` (rules R92, R94), the code bound raised as far as these need, and `ERR = OK` (a
terminal core fetches nothing, rule R91). It stands for the owner's loading of the code store before a run
(70_reset_and_hazards.md rule R202 (a); notes/assumptions/8.md). At `pc = 0xFFFE` no code store can hold a three-byte
instruction, since its operand fetch ends past 65536. -/
def State.withFetchWord (s : State) (nbits w : Nat) : State :=
  let bytes := tableWordBytes nbits w
  { s with
    code := (s.code.writeBytes s.pc.toNat (bytes.take 1)).writeBytes (s.pc + 1).toNat (bytes.drop 1)
    codeLen := max s.codeLen (min Config.maxCodeLen (s.pc.toNat + 3))
    err := .ok }

end Sys2Proof.Machine
end

