-- ==== Sys2Proof/Machine/HostPort.lean ====
section
/-! DEFINITION. What the host (the core's owner) can do between steps besides stepping (70_reset_and_hazards.md rules
R201, R202, R206, R207). The reset operation is `resetCore` in Machine/Ops.lean. No step calls anything here. -/

namespace Sys2Proof.Machine

/-- Power-on with a code store of `codeLen` bytes (rule R201): the reset state, hooks empty, no external RAM. IRAM and
`OP` hold whatever the caller says (10_state.md rules R34, R35). -/
def powerOn (code : Memory) (codeLen : Nat) (iram : Memory) (op : OperandBuffer) : State :=
  resetCore iram op { State.reset with code := code, codeLen := codeLen }

/-- The configuration the host makes "after core construction, before execution begins" (rule R202 (b), (c)): the
external RAM's length and contents, and the hook addresses. -/
def configure (xlen : Nat) (xdata : Memory) (whook rhook : List Byte) (s : State) : State :=
  { s with xlen := xlen, xdata := xdata, whook := whook, rhook := rhook }

/-- The host reads a general register by number, in the bank selected at the access (rule R206). -/
def hostReadReg (n : Nat) (s : State) : Except Refusal Byte :=
  if n ≤ 7 then .ok (readReg s (BitVec.ofNat 3 n)) else .error .hostRegisterOutOfRange

/-- The host writes a general register by number: no hook event (rule R206; decision D13, notes/assumptions/13.md). -/
def hostWriteReg (n : Nat) (v : Byte) (s : State) : Host.Outcome State Fault Refusal :=
  if n ≤ 7 then .next (writeReg (BitVec.ofNat 3 n) v s) else .refused .hostRegisterOutOfRange

/-- The host reads the data pointer (rule R207). -/
def hostReadDptr (s : State) : Word := readDptr s

/-- The host writes the data pointer: no hook event (rule R207; decision D13, notes/assumptions/13.md). -/
def hostWriteDptr (w : Word) (s : State) : State := writeDptr w s

end Sys2Proof.Machine
end

