-- ==== Sys2Proof/Safety.lean ====
section
/-! DEFINITION. The terms that claims about runs use: the fault classes, the invariant of a legal state, the settled
band and rest. -/

namespace Sys2Proof.Safety

open Sys2Proof.Machine

/-- The fault class of a stopped core (60_exceptions.md rule R190 (a)); `none` while `ERR = OK` and for the three codes
no step raises (rules R173, R174). -/
def faultOf (s : State) : Option Fault :=
  match s.err with
  | .codeOutOfRange => some .codeOutOfRange
  | .unknownInstruction => some .unknownInstruction
  | .ok => none
  | .genericFailure => none
  | .nullCore => none
  | .xdataOutOfRange => none

/-- A set of IRAM addresses in canonical form: strictly rising. -/
abbrev hookSetWf (h : List Byte) : Prop := h.Pairwise fun x y => x.toNat < y.toNat

/-- The codes that the hardware can hold (60_exceptions.md rules R170 to R174). -/
abbrev errReachable (e : Err) : Prop := e = .ok ∨ e = .codeOutOfRange ∨ e = .unknownInstruction

/-- What every state between two steps satisfies. -/
structure Inv (s : State) : Prop where
  /-- IRAM is canonical and has 256 bytes (10_state.md rule R18). -/
  iram : s.iram.wf ∧ s.iram.within Config.iramSize
  /-- XDATA is canonical and has `XLEN` bytes (10_state.md rule R22). -/
  xdata : s.xdata.wf ∧ s.xdata.within s.xlen
  /-- CODE is canonical and has `CODE_LEN` bytes (10_state.md rule R23). -/
  code : s.code.wf ∧ s.code.within s.codeLen
  /-- `CODE_LEN <= 65536` (00_scope.md rule R4). -/
  codeLen : s.codeLen ≤ Config.maxCodeLen
  /-- The hook sets are canonical. -/
  hooks : hookSetWf s.whook ∧ hookSetWf s.rhook
  /-- Every event shown so far was shown at an address of `WHOOK` (20_memory.md rule R50). -/
  trace : ∀ e ∈ s.trace, e.addr ∈ s.whook
  /-- `ERR` holds a code the hardware can raise (60_exceptions.md rules R173, R174). -/
  err : errReachable s.err
  /-- `JF` is 0 between steps but after a post-execution overflow error (10_state.md rule R25). -/
  jf : s.jf = true → s.err = .codeOutOfRange

/-- Bytes of one instruction lie at `pc`: its opcode is fetched, then its operands, and together they decode to it. -/
def FetchesAs (s : State) (ops : List Byte) (i : Instr) : Prop :=
  ∃ op, codeFetch s s.pc 1 = some [op] ∧ fetchOperands s (operandLength i) = some ops ∧ decode (op :: ops) = .ok (i, [])

/-- The target an instruction's handler jumps to, or `none` where it does not jump (40_step_cycle.md rule R99: only
`LJMP`, `SJMP` and a taken `DJNZ` do). -/
def jumpTarget (i : Instr) (s : State) : Option Word :=
  match i with
  | .ljmp addr => some addr
  | .sjmp rel => some (relTarget s.pc rel)
  | .djnz n rel => if readReg s n - 1#8 = 0#8 then none else some (relTarget s.pc rel)
  | .nop => none
  | .movDirectImm _ _ => none
  | .movRnImm _ _ => none
  | .movDptrImm _ => none
  | .incDptr => none
  | .clrBit _ => none
  | .setbBit _ => none
  | .clrA => none
  | .movxDptrA => none
  | .movRiA _ => none

/-- The settled band (40_step_cycle.md rule R101): `pc0 + 1 + L <= 0xFFFF`, and `t + 1 + L <= 0xFFFF` for a jump to `t`. -/
def Settled (i : Instr) (s : State) : Prop :=
  s.pc.toNat + 1 + operandLength i ≤ 0xFFFF ∧
    ∀ t, jumpTarget i s = some t → t.toNat + 1 + operandLength i ≤ 0xFFFF

/-- What a hooked store of `v` to IRAM address `a` makes of `s` (20_memory.md rule R50), through reads: the byte, every
other byte, the event exactly if a hook is present, and nothing else changed. -/
structure HookedStore (s t : State) (a v : Byte) : Prop where
  stored : readIram t a = v
  others : ∀ b, b ≠ a → readIram t b = readIram s b
  trace : t.trace = s.trace ++ (if a ∈ s.whook then [⟨a, v⟩] else [])
  frame : t = { s with iram := t.iram, trace := t.trace }

/-- The handler of one instruction applied `k` times in a row. -/
def execTimes (i : Instr) (k : Nat) (s : State) : Host.Outcome State Fault Refusal :=
  match k with
  | 0 => .next s
  | k + 1 =>
    match exec i s with
    | .next t => execTimes i k t
    | .fault f => .fault f
    | .refused r => .refused r

end Sys2Proof.Safety
end

