-- ==== Sys2Proof/WellFormed.lean ====
section
/-! DEFINITION. Which byte strings are one whole instruction (30_encoding.md rules R70, R74, R82, R83). There are two
checks: the opcode is defined, and it is followed by exactly the operand bytes its descriptor declares. Within a
defined instruction no operand value is illegal (rule R83), so there is no third. -/

namespace Sys2Proof

/-- An opcode byte and operand bytes, not yet known to be an instruction. -/
structure RawInstr where
  opcode : Byte
  operands : List Byte
deriving DecidableEq, Repr

/-- Check 1: the opcode is one of the 28 defined values (rules R81, R82). -/
def RawInstr.opcodeDefined (r : RawInstr) : Bool := (desc r.opcode).isSome

/-- Check 2: the operand bytes are as many as the descriptor declares (rules R70, R74). -/
def RawInstr.operandCountOk (r : RawInstr) : Bool :=
  (desc r.opcode).all fun d => r.operands.length == d.operandLength

/-- Both checks. -/
def RawInstr.wellFormed (r : RawInstr) : Bool := r.opcodeDefined && r.operandCountOk

/-- The opcode byte and the operand bytes that the encoder gives an instruction. -/
def Instr.raw (i : Instr) : RawInstr := ⟨(encode i).headD 0, (encode i).tail⟩

/-- An instruction is well formed when its bytes are. Its fields are as wide as the encoding's, so every term is:
`Laws.EncodingWellFormed` says so constructor by constructor. -/
def Instr.wellFormed (i : Instr) : Bool := i.raw.wellFormed

end Sys2Proof
end

