-- ==== Sys2Proof/Certificates/Slice0/Obligations.lean ====
section
/-! DEFINITION. The statements for the provers. A docstring names the rule of spec/ it formalises and, where a clause
rests on a choice of the spec or of the model, the log entry that says so. -/

open Sys2Proof Sys2Proof.Machine Sys2Proof.Safety

/-! ### Encoding -/

/-- Decoding what the encoder wrote gives the instruction back, with whatever bytes follow it, for every instruction and
every operand value (30_encoding.md, sections 1 to 3). The opcode bytes are log entry 1's. -/
def Obligations.DecodeInvertsEncode : Prop :=
  ∀ (i : Instr) (rest : List Byte), decode (encode i ++ rest) = .ok (i, rest)

/-- Bytes that decode are exactly the encoding of what they decode to: no two byte strings are one instruction
(30_encoding.md, sections 1 to 3; opcode bytes: log entry 1). -/
def Obligations.EncodeInvertsDecode : Prop :=
  ∀ (bs rest : List Byte) (i : Instr), decode bs = .ok (i, rest) → bs = encode i ++ rest

/-- An opcode byte is rejected, whatever follows it, exactly if it is none of the 28 values of 30_encoding.md section 3
(PRESUMED values, log entry 1). -/
def Obligations.OpcodeRejectedExactlyIfUndefined : Prop :=
  ∀ (op : Byte) (rest : List Byte),
    decode (op :: rest) = .error (.undefinedOpcode op) ↔
      op ∉ ([0x00, 0x02, 0x75, 0x78, 0x79, 0x7A, 0x7B, 0x7C, 0x7D, 0x7E, 0x7F, 0x80, 0x90, 0xA3, 0xC2, 0xD2,
        0xD8, 0xD9, 0xDA, 0xDB, 0xDC, 0xDD, 0xDE, 0xDF, 0xE4, 0xF0, 0xF6, 0xF7] : List Byte)

/-- A proper, non-empty beginning of an instruction's bytes is rejected as truncated: the first byte alone decides the
length (30_encoding.md, section 1). -/
def Obligations.ProperPrefixIsTruncated : Prop :=
  ∀ (i : Instr) (k : Nat), 0 < k → k < (encode i).length →
    decode ((encode i).take k) = .error (.truncated ((encode i).headD 0))

/-- A word per family, written out from the patterns of 30_encoding.md section 3, decodes to what it stands for
(PRESUMED opcode bytes, log entry 1). -/
def Obligations.SpecWordsDecode : Prop :=
  decode [0b00000010, 0x12, 0x34] = .ok (.ljmp 0x1234, []) ∧
  decode [0b11011010, 0xFE] = .ok (.djnz 2 0xFE, []) ∧
  decode [0b01110101, 0x80, 0xAA] = .ok (.movDirectImm 0x80 0xAA, []) ∧
  decode [0b11110111] = .ok (.movRiA 1, []) ∧
  decode [0b11010010, 0x30] = .ok (.setbBit 0x30, [])

/-- The three criteria for an undefined opcode pick the same opcodes: no descriptor exactly if the declared cycle cost is
zero (30_encoding.md section 4, conflict C4). The costs themselves are free values (log entry 17). -/
def Obligations.CycleCostZeroExactlyIfUndefined : Prop :=
  ∀ op : Byte, cycleCost op = 0 ↔ desc op = none

/-! ### The step machine -/

/-- R91: a step of a stopped core is a no-op. -/
def Obligations.TerminalStepChangesNothing : Prop :=
  ∀ s : State, s.err ≠ .ok → step s = .next s

/-- A step runs the decoded instruction: the fetched operand bytes go to `OP`, the handler runs, and stages 6 and 7
(`finishStep`) end the step (40_step_cycle.md, sections 1 and 3). The operands of an instruction at 0xFFFF, and the check
in `finishStep`, are the spec's decisions D10 and D11 (log entries 10, 11). -/
def Obligations.StepRunsTheDecodedInstruction : Prop :=
  ∀ (s : State) (i : Instr) (ops : List Byte), s.err = .ok → FetchesAs s ops i →
    ∃ u, exec i (storeOperands ops s) = .next u ∧ step s = .next (finishStep (operandLength i) u)

/-- Every step answers a next state: no step faults or is refused (40_step_cycle.md, section 1: a step is total). That
an entered error is shown as a next state with `ERR` set is the model's reading (log entry 18). -/
def Obligations.StepAlwaysAnswersNext : Prop :=
  ∀ s : State, ∃ t, step s = .next t

/-- The opcode fetch fails exactly at `pc >= CODE_LEN`, and then only `ERR` changes (40_step_cycle.md stage 2; the code
recorded is the spec's decision D9, log entry 9). -/
def Obligations.OpcodeFetchPastBoundStops : Prop :=
  ∀ s : State, s.err = .ok → s.codeLen ≤ s.pc.toNat → step s = .next { s with err := .codeOutOfRange }

/-- Missing operand bytes stop the step before anything is executed: only `ERR` changes (40_step_cycle.md stage 4). The
comparison with the bound, the code and the wrapped address are the spec's decisions D8, D9 and D10 (log entries 8, 9, 10);
that `OP` too stays as it was is the model's choice (log entry 19). -/
def Obligations.MissingOperandsStop : Prop :=
  ∀ (s : State) (d : Descriptor), s.err = .ok → s.pc.toNat < s.codeLen → desc (s.code.read s.pc.toNat) = some d →
    d.operandLength ≠ 0 → s.codeLen < (s.pc.toNat + 1) % 65536 + d.operandLength →
    step s = .next { s with err := .codeOutOfRange }

/-- `UnknownInstruction` is raised exactly at stage 3, by a fetched opcode without a descriptor (R172), and then nothing
but `ERR` changes (R93). That the opcode fetch succeeds exactly below the bound (R92) is the spec's decision D8 (log entry
8); which opcodes have a descriptor is its decisions D1 and D2 (log entries 1, 2). -/
def Obligations.UnknownInstructionExactlyAtUndefinedOpcode : Prop :=
  ∀ s t : State, s.err = .ok → step s = .next t →
    (t.err = .unknownInstruction ↔ s.pc.toNat < s.codeLen ∧ desc (s.code.read s.pc.toNat) = none) ∧
    (t.err = .unknownInstruction → t = { s with err := .unknownInstruction })

/-- `CodeOutOfRange` is raised in exactly three places (60_exceptions.md section 1): the opcode fetch, the operand fetch,
the check after the handler. Rests on the spec's decisions D8, D9, D10, D11 (log entries 8 to 11). -/
def Obligations.CodeOutOfRangeInThreePlaces : Prop :=
  ∀ s t : State, s.err = .ok → step s = .next t →
    (t.err = .codeOutOfRange ↔
      s.codeLen ≤ s.pc.toNat ∨
      (s.pc.toNat < s.codeLen ∧ ∃ d, desc (s.code.read s.pc.toNat) = some d ∧ d.operandLength ≠ 0 ∧
        s.codeLen < (s.pc.toNat + 1) % 65536 + d.operandLength) ∨
      (∃ i ops u, FetchesAs s ops i ∧ exec i (storeOperands ops s) = .next u ∧
        0xFFFF < u.pc.toNat + 1 + operandLength i))

/-- Entering an error changes `ERR` alone (60_exceptions.md section 3): all else is as before the step, or as the handler
of the fetched instruction left it. It does not say which at which stage: `OpcodeFetchPastBoundStops`,
`MissingOperandsStop`, `UnknownInstructionExactlyAtUndefinedOpcode` and `OverflowAfterHandlerKeepsItsEffects` do. That a
failed operand fetch leaves `OP` as it was is the model's choice (log entry 19). -/
def Obligations.ErrorEntryKeepsEverythingElse : Prop :=
  ∀ s t : State, s.err = .ok → step s = .next t → t.err ≠ .ok →
    t = { s with err := t.err } ∨
    ∃ i ops u, FetchesAs s ops i ∧ exec i (storeOperands ops s) = .next u ∧ t = { u with err := .codeOutOfRange }

/-- The check after the handler raises when `pc + 1 + L > 0xFFFF` for `pc` as the handler left it, jump or not, and
nothing the handler did is undone (40_step_cycle.md, sections 1 and 2). Which `pc` is read, and the threshold, are the
spec's decision D11 (log entry 11); an instruction at 0xFFFF has its operands at 0x0000 by decision D10 (log entry 10). -/
def Obligations.OverflowAfterHandlerKeepsItsEffects : Prop :=
  ∀ (s u : State) (i : Instr) (ops : List Byte), s.err = .ok → FetchesAs s ops i →
    exec i (storeOperands ops s) = .next u → 0xFFFF < u.pc.toNat + 1 + operandLength i →
    step s = .next { u with err := .codeOutOfRange }

/-- Without overflow, a handler that did not jump is followed by the advance by `1 + L`, which does not wrap, and one that
jumped keeps its `pc` and has `JF` cleared; `JF` is 0 afterwards in every case (40_step_cycle.md stage 7). That stage 7 is
reached exactly under this bound on the `pc` the handler left is the spec's decision D11 (log entry 11); an instruction at
0xFFFF has its operands at 0x0000 by decision D10 (log entry 10). -/
def Obligations.PcUpdateAfterHandler : Prop :=
  ∀ (s u : State) (i : Instr) (ops : List Byte), s.err = .ok → FetchesAs s ops i →
    exec i (storeOperands ops s) = .next u → u.pc.toNat + 1 + operandLength i ≤ 0xFFFF →
    ∃ t, step s = .next t ∧ t.jf = false ∧
      (u.jf = false → t = { u with pc := t.pc } ∧ t.pc.toNat = u.pc.toNat + 1 + operandLength i) ∧
      (u.jf = true → t = { u with jf := false })

/-- R99: a handler that does not jump leaves `pc` and `JF` alone; one that jumps writes both. `jumpTarget` gives a
target for `LJMP`, `SJMP` and a taken `DJNZ` only. -/
def Obligations.OnlyJumpsWritePcAndFlag : Prop :=
  ∀ (i : Instr) (s : State), ∃ u, exec i s = .next u ∧
    (jumpTarget i s = none → u.pc = s.pc ∧ u.jf = s.jf) ∧
    (∀ t, jumpTarget i s = some t → u.pc = t ∧ u.jf = true)

/-- In the settled band a step completes: `ERR` stays `OK`, `JF` is 0, and `pc` is the jump's target or the next
instruction's address (40_step_cycle.md, section 2). -/
def Obligations.SettledStepCompletes : Prop :=
  ∀ (s : State) (i : Instr) (ops : List Byte), s.err = .ok → s.jf = false → FetchesAs s ops i → Settled i s →
    ∃ t, step s = .next t ∧ t.err = .ok ∧ t.jf = false ∧
      (∀ a, jumpTarget i s = some a → t.pc = a) ∧
      (jumpTarget i s = none → t.pc.toNat = s.pc.toNat + 1 + operandLength i)

/-- The code-fetch port delivers the bytes at ascending addresses, or nothing at all exactly if the request ends past
the bound (20_memory.md section 4; the comparison is the spec's decision D8, log entry 8). -/
def Obligations.CodeFetchIsAllOrNothing : Prop :=
  ∀ (s : State) (addr : Word) (n : Nat),
    (s.codeLen < addr.toNat + n → codeFetch s addr n = none) ∧
    (addr.toNat + n ≤ s.codeLen → ∃ r, codeFetch s addr n = some r ∧ r.length = n ∧
      ∀ k, k < n → r[k]? = some (s.code.read (addr.toNat + k)))

/-- The owner's load of an instruction makes the very next step run it (log entry 8), wherever `pc` leaves room for
three bytes. -/
def Obligations.LoadedWordIsFetched : Prop :=
  ∀ (s : State) (nbits w : Nat) (i : Instr), decodeTableWord nbits w = some i → s.pc.toNat ≤ 0xFFFD →
    (s.withFetchWord nbits w).err = .ok ∧
    FetchesAs (s.withFetchWord nbits w) (((tableWordBytes nbits w).drop 1).take (operandLength i)) i

/-! ### What each instruction does, and leaves alone -/

/-- `NOP` changes nothing, and its step advances `pc` by 1 (41_nop_and_jumps.md). -/
def Obligations.NopResult : Prop :=
  (∀ s : State, exec .nop s = .next s) ∧
  (∀ s : State, s.err = .ok → s.jf = false → FetchesAs s [] .nop → s.pc.toNat ≤ 0xFFFE →
    step s = .next { s with pc := s.pc + 1 })

/-- `LJMP`: `pc` becomes the operand, `JF` is set, nothing else changes; its step, to a target up to 0xFFFC, ends
with `JF` clear and `ERR` still `OK` (41_nop_and_jumps.md). For an `LJMP` that itself lies at 0xFFFD or above, outside the
settled band, that rests on the spec's decision D11 (log entry 11) and, at 0xFFFF, on D10 (log entry 10). -/
def Obligations.LjmpResult : Prop :=
  (∀ (addr : Word) (s : State), exec (.ljmp addr) s = .next { s with pc := addr, jf := true }) ∧
  (∀ (hi lo : Byte) (s : State), s.err = .ok → FetchesAs s [hi, lo] (.ljmp (word16 hi lo)) →
    (word16 hi lo).toNat ≤ 0xFFFC →
    step s = .next { s with pc := word16 hi lo, jf := false, op := { s.op with b0 := hi, b1 := lo } })

/-- `SJMP`: `pc` becomes `pc + 2 + offset` with the offset read as two's complement, modulo 65536 (the wrap is the spec's
decision D12, log entry 12); `JF` is set, nothing else changes (41_nop_and_jumps.md). -/
def Obligations.SjmpResult : Prop :=
  ∀ (rel : Byte) (s : State), ∃ t, exec (.sjmp rel) s = .next t ∧ t = { s with pc := t.pc, jf := true } ∧
    (t.pc.toNat : Int) = ((s.pc.toNat : Int) + 2 + rel.toInt) % 65536

/-- `DJNZ`: the register is decremented modulo 256 in both cases, with no event (log entry 13); unless the result is
zero, `pc` becomes `pc + 2 + offset` modulo 65536 (log entry 12) and `JF` is set; nothing else changes
(41_nop_and_jumps.md). -/
def Obligations.DjnzResult : Prop :=
  ∀ (n : BitVec 3) (rel : Byte) (s : State), ∃ t, exec (.djnz n rel) s = .next t ∧
    (readIram t (regAddr s n)).toNat = ((readIram s (regAddr s n)).toNat + 255) % 256 ∧
    (∀ b, b ≠ regAddr s n → readIram t b = readIram s b) ∧
    (readIram s (regAddr s n) = 1 → t = { s with iram := t.iram }) ∧
    (readIram s (regAddr s n) ≠ 1 → t = { s with iram := t.iram, pc := t.pc, jf := true } ∧
      (t.pc.toNat : Int) = ((s.pc.toNat : Int) + 2 + rel.toInt) % 65536)

/-- `MOV direct,#data` is a hooked store of the immediate to the direct address (42_moves.md). -/
def Obligations.MovDirectImmResult : Prop :=
  ∀ (direct data : Byte) (s : State), ∃ t, exec (.movDirectImm direct data) s = .next t ∧
    HookedStore s t direct data

/-- `MOV Rn,#data` is a hooked store to the resolved address `bank*8 + n` (42_moves.md; bit order of the bank: log
entry 4). -/
def Obligations.MovRnImmResult : Prop :=
  ∀ (n : BitVec 3) (data : Byte) (s : State), ∃ t a, exec (.movRnImm n data) s = .next t ∧
    a.toNat = s.psw.toNat / 8 % 4 * 8 + n.toNat ∧ HookedStore s t a data

/-- `MOV @Ri,A` is a hooked store of `A` to the address held in `R0` or `R1` of the current bank (42_moves.md; bit order
of the bank: log entry 4). -/
def Obligations.MovRiAResult : Prop :=
  ∀ (i : BitVec 1) (s : State), ∃ t p, exec (.movRiA i) s = .next t ∧
    p.toNat = s.psw.toNat / 8 % 4 * 8 + i.toNat ∧ HookedStore s t (readIram s p) s.a

/-- `CLR bit` is a hooked store of 0x00 to the whole byte at the operand (43_alu_and_bit.md). -/
def Obligations.ClrBitResult : Prop :=
  ∀ (direct : Byte) (s : State), ∃ t, exec (.clrBit direct) s = .next t ∧ HookedStore s t direct 0x00

/-- `SETB bit` is a hooked store of 0x01 to the whole byte at the operand (43_alu_and_bit.md). -/
def Obligations.SetbBitResult : Prop :=
  ∀ (direct : Byte) (s : State), ∃ t, exec (.setbBit direct) s = .next t ∧ HookedStore s t direct 0x01

/-- `MOV DPTR,#data16` writes the high byte to IRAM 0x82 and the low byte to 0x83 and nothing else (42_moves.md); no
event (log entry 13). -/
def Obligations.MovDptrImmResult : Prop :=
  ∀ (data : Word) (s : State), ∃ t, exec (.movDptrImm data) s = .next t ∧
    (readIram t 0x82).toNat = data.toNat / 256 ∧ (readIram t 0x83).toNat = data.toNat % 256 ∧
    (∀ b, b ≠ 0x82 → b ≠ 0x83 → readIram t b = readIram s b) ∧ t = { s with iram := t.iram }

/-- `INC DPTR` adds 1 modulo 65536 to the number in IRAM 0x82 (high) and 0x83 (low) and changes nothing else
(43_alu_and_bit.md); no event (log entry 13). -/
def Obligations.IncDptrResult : Prop :=
  ∀ s : State, ∃ t, exec .incDptr s = .next t ∧
    (readIram t 0x82).toNat * 256 + (readIram t 0x83).toNat =
      ((readIram s 0x82).toNat * 256 + (readIram s 0x83).toNat + 1) % 65536 ∧
    (∀ b, b ≠ 0x82 → b ≠ 0x83 → readIram t b = readIram s b) ∧ t = { s with iram := t.iram }

/-- `CLR A` clears the accumulator and changes nothing else: no flag, no IRAM byte (43_alu_and_bit.md). -/
def Obligations.ClrAResult : Prop :=
  ∀ s : State, exec .clrA s = .next { s with a := 0x00 }

/-- `MOVX @DPTR,A` stores `A` at the external offset `DPTR` if that lies below `XLEN`, and otherwise changes nothing at
all: no error (42_moves.md). -/
def Obligations.MovxResult : Prop :=
  ∀ (s : State) (d : Nat), d = (readIram s 0x82).toNat * 256 + (readIram s 0x83).toNat →
    (d < s.xlen → ∃ t, exec .movxDptrA s = .next t ∧ t.xdata.read d = s.a ∧
      (∀ e, e ≠ d → t.xdata.read e = s.xdata.read e) ∧ t = { s with xdata := t.xdata }) ∧
    (s.xlen ≤ d → exec .movxDptrA s = .next s)

/-- The data pointer after `k` executions of `INC DPTR` is `k` more, modulo 65536, and only its two bytes have changed
(43_alu_and_bit.md). -/
def Obligations.IncDptrRepeated : Prop :=
  ∀ (k : Nat) (s : State), ∃ t, execTimes .incDptr k s = .next t ∧
    (readDptr t).toNat = ((readDptr s).toNat + k) % 65536 ∧
    (∀ b, b ≠ 0x82 → b ≠ 0x83 → readIram t b = readIram s b) ∧ t = { s with iram := t.iram }

/-- `DJNZ` counts down: from a register holding `K`, after `k < K` executions it holds `K - k`, and the next execution
falls through exactly if it is the `K`-th (41_nop_and_jumps.md). -/
def Obligations.DjnzCountsDown : Prop :=
  ∀ (n : BitVec 3) (rel : Byte) (s : State) (k : Nat), k < (readReg s n).toNat →
    ∃ t, execTimes (.djnz n rel) k s = .next t ∧ (readReg t n).toNat = (readReg s n).toNat - k ∧
      (jumpTarget (.djnz n rel) t = none ↔ k + 1 = (readReg s n).toNat)

/-! ### Shared operations -/

/-- R50: the hooked store shows the event if a hook is present and stores the byte in any case. -/
def Obligations.DirectStoreShowsThenStores : Prop :=
  ∀ (a v : Byte) (s : State), HookedStore s (directStore a v s) a v

/-- R20: the data pointer is the IRAM bytes 0x82 (high) and 0x83 (low), for reads, for writes, and after a store to
either of them. -/
def Obligations.DptrIsTwoIramBytes : Prop :=
  (∀ s : State, (readDptr s).toNat = (readIram s 0x82).toNat * 256 + (readIram s 0x83).toNat) ∧
  (∀ (w : Word) (s : State), readDptr (writeDptr w s) = w ∧
    (readIram (writeDptr w s) 0x82).toNat = w.toNat / 256 ∧ (readIram (writeDptr w s) 0x83).toNat = w.toNat % 256) ∧
  (∀ (v : Byte) (s : State),
    (readDptr (writeIram 0x82 v s)).toNat = v.toNat * 256 + (readDptr s).toNat % 256 ∧
    (readDptr (writeIram 0x83 v s)).toNat = (readDptr s).toNat / 256 * 256 + v.toNat ∧
    readDptr (directStore 0x82 v s) = readDptr (writeIram 0x82 v s) ∧
    readDptr (directStore 0x83 v s) = readDptr (writeIram 0x83 v s))

/-- Where no write hook lies at 0x00 to 0x1F, 0x82 or 0x83, the stores that the spec's decision D13 leaves without an
event (log entry 13) are the same as hooked stores: the decision is then unobservable (20_memory.md section 7). -/
def Obligations.UnhookedStoresAgreeUnderGuard : Prop :=
  ∀ s : State, (∀ a ∈ s.whook, 0x1F < a.toNat ∧ a ≠ 0x82 ∧ a ≠ 0x83) →
    (∀ (n : BitVec 3) (v : Byte), writeReg n v s = directStore (regAddr s n) v s) ∧
    (∀ w : Word, writeDptr w s = directStore 0x83 (lo8 w) (directStore 0x82 (hi8 w) s))

/-- The address of `Rn` is `bank*8 + n`, with the bank in `PSW[4:3]` (10_state.md sections 3 and 4; bit order: the
spec's decision D4, log entry 4); reading or writing `Rn` is reading or writing that IRAM byte. -/
def Obligations.RegisterIsBankedIramByte : Prop :=
  ∀ (s : State) (n : BitVec 3),
    (regAddr s n).toNat = s.psw.toNat / 8 % 4 * 8 + n.toNat ∧ readReg s n = readIram s (regAddr s n) ∧
    ∀ (v b : Byte), readIram (writeReg n v s) b = if b = regAddr s n then v else readIram s b

/-- The flag word is its seven fields and nothing else (10_state.md section 3; bit order of the bank: log entry 4). -/
def Obligations.PswIsItsFields : Prop :=
  (∀ psw : Byte, pswOfFields (pswCY psw) (pswAC psw) (pswF0 psw) (pswBank psw) (pswOV psw) (pswF1 psw) (pswP psw) = psw ∧
    (pswBank psw).toNat = psw.toNat / 8 % 4) ∧
  (∀ (cy ac f0 ov f1 p : Bool) (rs : BitVec 2), let psw := pswOfFields cy ac f0 rs ov f1 p
    pswCY psw = cy ∧ pswAC psw = ac ∧ pswF0 psw = f0 ∧ pswBank psw = rs ∧ pswOV psw = ov ∧ pswF1 psw = f1 ∧
    pswP psw = p)

/-- Two canonical memories that read alike everywhere are the same data (20_memory.md section 1; the form is log
entry 16). -/
def Obligations.CanonicalMemoryIsItsReads : Prop :=
  ∀ m m' : Memory, m.wf → m'.wf → (∀ a, m.read a = m'.read a) → m = m'

/-! ### The whole machine -/

/-- The state after reset satisfies the invariant. -/
def Obligations.ResetSatisfiesInvariant : Prop := Inv State.reset

/-- Every step keeps the invariant, from every state that satisfies it: memories canonical and inside their spaces, the
platform's bounds, every event at a hooked address, only raisable error codes, `JF = 0` but after an overflow. -/
def Obligations.StepKeepsInvariant : Prop :=
  ∀ s t : State, Inv s → step s = .next t → Inv t

/-- Reset and the host's two accessors keep the invariant (70_reset_and_hazards.md section 5), for every contents that
reset may leave in IRAM. -/
def Obligations.HostKeepsInvariant : Prop :=
  ∀ s : State, Inv s →
    (∀ (iram : Memory) (op : OperandBuffer), iram.wf → iram.within Config.iramSize → Inv (resetCore iram op s)) ∧
    (∀ (n : Nat) (v : Byte) (t : State), hostWriteReg n v s = .next t → Inv t) ∧
    (∀ w : Word, Inv (hostWriteDptr w s))

/-- A power-on with a legal code store, configured by the host, satisfies the invariant whatever IRAM, `OP` and XDATA hold
(70_reset_and_hazards.md sections 1 and 2). -/
def Obligations.ConfiguredPowerOnSatisfiesInvariant : Prop :=
  ∀ (code iram xdata : Memory) (codeLen xlen : Nat) (op : OperandBuffer) (whook rhook : List Byte),
    code.wf → code.within codeLen → codeLen ≤ Config.maxCodeLen → iram.wf → iram.within Config.iramSize →
    xdata.wf → xdata.within xlen → hookSetWf whook → hookSetWf rhook →
    Inv (configure xlen xdata whook rhook (powerOn code codeLen iram op))

/-- In a legal state the core has a fault class exactly if `ERR` is not `OK`, and then a step changes nothing
(60_exceptions.md section 7). -/
def Obligations.FaultClassExactlyWhenStopped : Prop :=
  ∀ s : State, Inv s → (faultOf s = none ↔ s.err = .ok) ∧ (faultOf s ≠ none → step s = .next s)

/-- R178: while `ERR` is not `OK`, no number of steps changes anything. -/
def Obligations.StoppedCoreNeverChanges : Prop :=
  ∀ (k : Nat) (s : State), s.err ≠ .ok → Host.Core.run core k s = .next s

/-- No step changes `B`, `SP`, `PSW`, the code store, the external RAM's length or the hook sets (10_state.md section 3,
20_memory.md section 10). -/
def Obligations.StepKeepsRegistersAndPlatform : Prop :=
  ∀ s t : State, step s = .next t →
    t.b = s.b ∧ t.sp = s.sp ∧ t.psw = s.psw ∧ t.code = s.code ∧ t.codeLen = s.codeLen ∧ t.xlen = s.xlen ∧
    t.whook = s.whook ∧ t.rhook = s.rhook

/-- The only step that changes `A` is `CLR A`'s, and it leaves 0x00 (10_state.md section 2). -/
def Obligations.AccumulatorChangesOnlyByClrA : Prop :=
  ∀ s t : State, step s = .next t → t.a = s.a ∨ (t.a = 0x00 ∧ s.err = .ok ∧ FetchesAs s [] .clrA)

/-- The only step that changes XDATA is `MOVX @DPTR,A`'s with `DPTR < XLEN`, and it changes one byte (42_moves.md). -/
def Obligations.XdataChangesOnlyByMovx : Prop :=
  ∀ s t : State, step s = .next t → t.xdata = s.xdata ∨
    (s.err = .ok ∧ FetchesAs s [] .movxDptrA ∧ (readDptr s).toNat < s.xlen ∧
      t.xdata.read (readDptr s).toNat = s.a ∧
      ∀ e, e ≠ (readDptr s).toNat → t.xdata.read e = s.xdata.read e)

/-- A step shows at most one event, at an address of `WHOOK`, and leaves the shown byte there (20_memory.md section
7). That it is never two rests on `MOV DPTR` and `INC DPTR` showing none, the spec's decision D13 (log entry 13). -/
def Obligations.AtMostOneEventPerStep : Prop :=
  ∀ s t : State, step s = .next t → t.trace = s.trace ∨
    ∃ e, t.trace = s.trace ++ [e] ∧ e.addr ∈ s.whook ∧ readIram t e.addr = e.value

/-- R173: no step raises `XdataOutOfRange`; an external store at or past `XLEN` is dropped silently. -/
def Obligations.XdataOutOfRangeNeverRaised : Prop :=
  (∀ s t : State, step s = .next t → t.err = .xdataOutOfRange → s.err = .xdataOutOfRange) ∧
  (∀ s : State, s.xlen ≤ (readDptr s).toNat → exec .movxDptrA s = .next s)

/-- `B`, `SP`, the flags other than the bank field, the read hooks and the trace so far have no influence: a step from a
state that differs only in them does the same and differs only in them (10_state.md sections 2 and 3, 20_memory.md
section 7). -/
def Obligations.UnreadStateHasNoInfluence : Prop :=
  ∀ (s t : State) (b sp psw : Byte) (rhook : List Byte) (trace : List HookEvent), pswBank psw = pswBank s.psw →
    step s = .next t →
    step { s with b := b, sp := sp, psw := psw, rhook := rhook, trace := trace } =
      .next { t with b := b, sp := sp, psw := psw, rhook := rhook, trace := trace ++ t.trace.drop s.trace.length }

/-- A jump to itself rests: after its first step (which leaves its operand bytes in `OP`) every further step returns the
same state (70_reset_and_hazards.md section 5). -/
def Obligations.SelfJumpRests : Prop :=
  ∀ (s : State) (i : Instr) (ops : List Byte), s.err = .ok → s.jf = false → FetchesAs s ops i →
    i = .ljmp s.pc ∨ i = .sjmp 0xFE → s.pc.toNat + 1 + operandLength i ≤ 0xFFFF →
    step s = .next (storeOperands ops s) ∧ step (storeOperands ops s) = .next (storeOperands ops s)

/-! ### Reset and the host -/

/-- R31, R32: what reset leaves, at power-on and by the host's reset operation from any state, whatever IRAM and `OP`
then hold. -/
def Obligations.ResetRegisterValues : Prop :=
  ∀ t : State, (t = State.reset ∨ ∃ iram op s, t = resetCore iram op s) →
    t.a = 0x00 ∧ t.b = 0x00 ∧ t.sp = 0x00 ∧ t.pc = 0x0000 ∧ t.psw = 0x00 ∧ pswBank t.psw = 0 ∧
    pswCY t.psw = false ∧ pswAC t.psw = false ∧ pswF0 t.psw = false ∧ pswOV t.psw = false ∧ pswF1 t.psw = false ∧
    pswP t.psw = false ∧ t.err = .ok

/-- Reset leaves what the host and the platform own, clears `JF` (the spec's decision D6, log entry 6), and shows no
event (10_state.md section 7, 70_reset_and_hazards.md section 1); the trace kept is the model's choice (log entry 14). -/
def Obligations.ResetKeepsPlatform : Prop :=
  ∀ (iram : Memory) (op : OperandBuffer) (s : State), let t := resetCore iram op s
    t.jf = false ∧ t.iram = iram ∧ t.op = op ∧ t.xlen = s.xlen ∧ t.xdata = s.xdata ∧ t.code = s.code ∧
    t.codeLen = s.codeLen ∧ t.whook = s.whook ∧ t.rhook = s.rhook ∧ t.trace = s.trace

/-- The host's access to a general register (70_reset_and_hazards.md section 5): numbers 0 to 7 name the current bank's
bytes, a write shows no event (log entry 13), and any other number is refused and changes nothing (log entry 20). -/
def Obligations.HostRegisterAccess : Prop :=
  ∀ (s : State) (n : Nat),
    (n ≤ 7 → ∃ a : Byte, a.toNat = s.psw.toNat / 8 % 4 * 8 + n ∧ hostReadReg n s = .ok (readIram s a) ∧
      ∀ v, ∃ t, hostWriteReg n v s = .next t ∧ readIram t a = v ∧ (∀ b, b ≠ a → readIram t b = readIram s b) ∧
        t = { s with iram := t.iram }) ∧
    (7 < n → hostReadReg n s = .error .hostRegisterOutOfRange ∧
      ∀ v, hostWriteReg n v s = .refused .hostRegisterOutOfRange)

/-- The host's write of the data pointer reads back identical, decomposes big-endian, and changes nothing else
(70_reset_and_hazards.md section 5); no event (log entry 13). -/
def Obligations.HostDptrRoundTrip : Prop :=
  ∀ (w : Word) (s : State), let t := hostWriteDptr w s
    hostReadDptr t = w ∧ (readIram t 0x82).toNat = w.toNat / 256 ∧ (readIram t 0x83).toNat = w.toNat % 256 ∧
    (∀ b, b ≠ 0x82 → b ≠ 0x83 → readIram t b = readIram s b) ∧ t = { s with iram := t.iram }
end

