-- ==== Sys2Proof/Laws/Decode.lean ====
section
/-! SUPPORT. Facts about the descriptor table, the fields and the byte order. -/

namespace Sys2Proof

/-- A descriptor that is found is a row of the table and its opcode has the row's pattern. -/
theorem desc_some {op : Byte} {d : Descriptor} (h : desc op = some d) : d ∈ descriptors ∧ op &&& d.mask = d.bits :=
  ⟨List.mem_of_find?_eq_some h, by simpa using List.find?_some h⟩

/-! Each defined opcode's row of rule R81. -/

@[simp] theorem desc_nop : desc 0x00#8 = some ⟨0xFF, 0x00, 0, .nop, "NOP"⟩ := by decide
@[simp] theorem desc_ljmp : desc 0x02#8 = some ⟨0xFF, 0x02, 2, .ljmp, "LJMP addr16"⟩ := by decide
@[simp] theorem desc_movDirectImm : desc 0x75#8 = some ⟨0xFF, 0x75, 2, .movDirectImm, "MOV direct,#data"⟩ := by decide
@[simp] theorem desc_movRnImm (n : BitVec 3) :
    desc (0x78#8 + n.setWidth 8) = some ⟨0xF8, 0x78, 1, .movRnImm, "MOV Rn,#data"⟩ := by revert n; decide
@[simp] theorem desc_sjmp : desc 0x80#8 = some ⟨0xFF, 0x80, 1, .sjmp, "SJMP rel"⟩ := by decide
@[simp] theorem desc_movDptrImm : desc 0x90#8 = some ⟨0xFF, 0x90, 2, .movDptrImm, "MOV DPTR,#data16"⟩ := by decide
@[simp] theorem desc_incDptr : desc 0xA3#8 = some ⟨0xFF, 0xA3, 0, .incDptr, "INC DPTR"⟩ := by decide
@[simp] theorem desc_clrBit : desc 0xC2#8 = some ⟨0xFF, 0xC2, 1, .clrBit, "CLR bit"⟩ := by decide
@[simp] theorem desc_setbBit : desc 0xD2#8 = some ⟨0xFF, 0xD2, 1, .setbBit, "SETB bit"⟩ := by decide
@[simp] theorem desc_djnz (n : BitVec 3) :
    desc (0xD8#8 + n.setWidth 8) = some ⟨0xF8, 0xD8, 1, .djnz, "DJNZ Rn,rel"⟩ := by revert n; decide
@[simp] theorem desc_clrA : desc 0xE4#8 = some ⟨0xFF, 0xE4, 0, .clrA, "CLR A"⟩ := by decide
@[simp] theorem desc_movxDptrA : desc 0xF0#8 = some ⟨0xFF, 0xF0, 0, .movxDptrA, "MOVX @DPTR,A"⟩ := by decide
@[simp] theorem desc_movRiA (i : BitVec 1) :
    desc (0xF6#8 + i.setWidth 8) = some ⟨0xFE, 0xF6, 0, .movRiA, "MOV @Ri,A"⟩ := by revert i; decide

/-! A register number added to its group's first opcode is read back by the field (rules R76, R77). -/

@[simp] theorem regField_movRnImm (n : BitVec 3) : regField (0x78#8 + n.setWidth 8) = n := by revert n; decide
@[simp] theorem regField_djnz (n : BitVec 3) : regField (0xD8#8 + n.setWidth 8) = n := by revert n; decide
@[simp] theorem ptrField_movRiA (i : BitVec 1) : ptrField (0xF6#8 + i.setWidth 8) = i := by revert i; decide

/-- The operand length of the instruction built from a descriptor is the descriptor's. -/
theorem operandLength_build {op : Byte} {d : Descriptor} (h : desc op = some d) (x y : Byte) :
    operandLength (build d.kind op x y) = d.operandLength := by
  have := (desc_some h).1
  simp only [descriptors, List.mem_cons, List.not_mem_nil, or_false] at this
  rcases this with rfl | rfl | rfl | rfl | rfl | rfl | rfl | rfl | rfl | rfl | rfl | rfl | rfl <;> rfl

/-- No instruction has more than two operand bytes (30_encoding.md rule R70). -/
theorem operandLength_le_two (i : Instr) : operandLength i ≤ 2 := by cases i <;> simp [operandLength]

/-- The encoder gives one opcode byte and the operand bytes. -/
theorem encode_length (i : Instr) : (encode i).length = 1 + operandLength i := by cases i <;> rfl

/-- `word16 h l` is the number `h * 256 + l`. -/
theorem word16_toNat (h l : Byte) : (word16 h l).toNat = h.toNat * 256 + l.toNat := by
  have hh := h.isLt
  have hl := l.isLt
  have hor := Nat.two_pow_add_eq_or_of_lt (i := 8) (b := l.toNat) (by omega) h.toNat
  simp only [word16, BitVec.toNat_or, BitVec.toNat_shiftLeft, BitVec.toNat_setWidth, Nat.shiftLeft_eq]
  rw [Nat.mod_eq_of_lt (a := h.toNat) (by omega), Nat.mod_eq_of_lt (a := l.toNat) (by omega),
    Nat.mod_eq_of_lt (by omega), Nat.mul_comm, ← hor]

@[simp] theorem hi8_word16 (h l : Byte) : hi8 (word16 h l) = h := by
  apply BitVec.eq_of_toNat_eq
  have hh := h.isLt
  have hl := l.isLt
  simp only [hi8, word16_toNat, BitVec.extractLsb'_toNat, Nat.shiftRight_eq_div_pow]
  omega

@[simp] theorem lo8_word16 (h l : Byte) : lo8 (word16 h l) = l := by
  apply BitVec.eq_of_toNat_eq
  have hh := h.isLt
  have hl := l.isLt
  simp only [lo8, word16_toNat, BitVec.extractLsb'_toNat, Nat.shiftRight_eq_div_pow]
  omega

@[simp] theorem word16_hi8_lo8 (w : Word) : word16 (hi8 w) (lo8 w) = w := by
  apply BitVec.eq_of_toNat_eq
  have hw := w.isLt
  simp only [word16_toNat, hi8, lo8, BitVec.extractLsb'_toNat, Nat.shiftRight_eq_div_pow]
  omega

/-- Decoding, when it succeeds: the opcode has a descriptor and enough operand bytes follow. -/
theorem decode_ok {bs rest : List Byte} {i : Instr} (h : decode bs = .ok (i, rest)) :
    ∃ op ops d, bs = op :: ops ∧ desc op = some d ∧ d.operandLength ≤ ops.length ∧
      i = build d.kind op (ops.getD 0 0) (ops.getD 1 0) ∧ rest = ops.drop d.operandLength := by
  cases bs with
  | nil => simp [decode] at h
  | cons op ops =>
    simp only [decode] at h
    split at h
    · simp at h
    · next d hd =>
      split at h
      · simp at h
      · next hlen =>
        simp only [Except.ok.injEq, Prod.mk.injEq] at h
        exact ⟨op, ops, d, rfl, hd, by omega, h.1.symm, h.2.symm⟩

end Sys2Proof
end

