-- ==== Sys2Proof/Laws/Memory.lean ====
section
/-! SUPPORT. What memory operations do: a read after a write, everywhere else unchanged, and every operation keeps the
canonical form. The read laws hold of every list, canonical or not. -/

namespace Sys2Proof.Machine.Memory

variable (m : Memory) (a b : Nat) (v : Byte)

@[simp] theorem read_nil : Memory.read [] a = unlisted := rfl

theorem read_cons (c : Host.Cell) : Memory.read (c :: m) a = if c.1 = a then c.2 else Memory.read m a := rfl

/-- An address that is listed nowhere reads as the unlisted value. -/
theorem read_eq_unlisted_of_notMem (h : ∀ c ∈ m, c.1 ≠ a) : Memory.read m a = unlisted := by
  induction m with
  | nil => rfl
  | cons c rest ih =>
    rw [read_cons, if_neg (h c (by simp))]
    exact ih fun d hd => h d (by simp [hd])

theorem read_erase_same : (Memory.erase m a).read a = unlisted := by
  apply read_eq_unlisted_of_notMem
  intro c hc
  simpa [Memory.erase] using (List.mem_filter.mp hc).2

theorem erase_cons (c : Host.Cell) :
    Memory.erase (c :: m) a = if c.1 = a then Memory.erase m a else c :: Memory.erase m a := by
  by_cases hc : c.1 = a <;> simp [Memory.erase, hc]

theorem read_erase_other (h : b ≠ a) : (Memory.erase m a).read b = Memory.read m b := by
  induction m with
  | nil => rfl
  | cons c rest ih =>
    rw [erase_cons]
    by_cases hc : c.1 = a
    · have hcb : c.1 ≠ b := fun hb => h (hb ▸ hc)
      rw [if_pos hc, ih, read_cons, if_neg hcb]
    · rw [if_neg hc, read_cons, read_cons, ih]

theorem read_insert_same (h : ∀ c ∈ m, c.1 ≠ a) : (Memory.insert m a v).read a = v := by
  induction m with
  | nil => simp [Memory.insert, read_cons]
  | cons c rest ih =>
    have hc : c.1 ≠ a := h c (by simp)
    by_cases hlt : a < c.1
    · simp [Memory.insert, hlt, read_cons]
    · simpa [Memory.insert, hlt, read_cons, hc] using ih fun d hd => h d (by simp [hd])

theorem read_insert_other (h : b ≠ a) : (Memory.insert m a v).read b = Memory.read m b := by
  have hab : ¬a = b := fun e => h e.symm
  induction m with
  | nil => simp [Memory.insert, read_cons, hab]
  | cons c rest ih =>
    by_cases hlt : a < c.1
    · simp [Memory.insert, hlt, read_cons, hab]
    · simp [Memory.insert, hlt, read_cons, ih]

theorem erase_ne {c : Host.Cell} (h : c ∈ Memory.erase m a) : c.1 ≠ a := by
  simpa using (List.mem_filter.mp h).2

/-- A read returns the value of the most recent write to its address. -/
@[simp] theorem read_write_same : (Memory.write m a v).read a = v := by
  unfold Memory.write
  split
  · next h => rw [read_erase_same, h]
  · exact read_insert_same _ _ _ fun c hc => erase_ne m a hc

/-- A write leaves every other address alone. -/
theorem read_write_other (h : b ≠ a) : (Memory.write m a v).read b = Memory.read m b := by
  unfold Memory.write
  split
  · exact read_erase_other m a b h
  · rw [read_insert_other _ _ _ _ h, read_erase_other m a b h]

theorem read_write : (Memory.write m a v).read b = if b = a then v else Memory.read m b := by
  split
  · next h => subst h; exact read_write_same m b v
  · next h => exact read_write_other m a b v h

theorem mem_insert {c : Host.Cell} (h : c ∈ Memory.insert m a v) : c = (a, v) ∨ c ∈ m := by
  induction m with
  | nil => simpa [Memory.insert] using h
  | cons d rest ih =>
    by_cases hlt : a < d.1
    · simpa [Memory.insert, hlt] using h
    · simp only [Memory.insert, hlt, if_false, List.mem_cons] at h
      rcases h with rfl | h
      · simp
      · rcases ih h with h | h <;> simp [h]

theorem erase_wf (h : Memory.wf m) : (Memory.erase m a).wf :=
  ⟨h.1.filter _, fun c hc => h.2 c (List.mem_filter.mp hc).1⟩

theorem insert_pairwise (h : m.Pairwise fun c d => c.1 < d.1) (hne : ∀ c ∈ m, c.1 ≠ a) :
    (Memory.insert m a v).Pairwise fun c d => c.1 < d.1 := by
  induction m with
  | nil => simp [Memory.insert]
  | cons c rest ih =>
    have hrest := List.pairwise_cons.mp h
    have hca : c.1 ≠ a := hne c (by simp)
    by_cases hlt : a < c.1
    · simp only [Memory.insert, hlt, if_true, List.pairwise_cons]
      refine ⟨fun d hd => ?_, hrest⟩
      rcases List.mem_cons.mp hd with rfl | hd
      · exact hlt
      · exact lt_trans hlt (hrest.1 d hd)
    · simp only [Memory.insert, hlt, if_false, List.pairwise_cons]
      refine ⟨fun d hd => ?_, ih hrest.2 fun d hd => hne d (by simp [hd])⟩
      rcases mem_insert rest a v hd with rfl | hd
      · exact lt_of_le_of_ne (not_lt.mp hlt) hca
      · exact hrest.1 d hd

/-- A write keeps the canonical form. -/
theorem write_wf (h : Memory.wf m) : (Memory.write m a v).wf := by
  unfold Memory.write
  split
  · exact erase_wf m a h
  · next hv =>
    have he := erase_wf m a h
    refine ⟨insert_pairwise _ _ _ he.1 fun c hc => erase_ne m a hc, fun c hc => ?_⟩
    rcases mem_insert _ _ _ hc with rfl | hc
    · exact hv
    · exact he.2 c hc

/-- A write inside a space stays inside it. -/
theorem write_within {size : Nat} (h : Memory.within m size) (ha : a < size) : (Memory.write m a v).within size := by
  have he : Memory.within (Memory.erase m a) size := fun c hc => h c (List.mem_filter.mp hc).1
  unfold Memory.write
  split
  · exact he
  · intro c hc
    rcases mem_insert _ _ _ hc with rfl | hc
    · exact ha
    · exact he c hc

/-- A write of several bytes keeps the canonical form. -/
theorem writeBytes_wf (vs : List Byte) (h : Memory.wf m) : (Memory.writeBytes m a vs).wf := by
  induction vs generalizing m a with
  | nil => exact h
  | cons v rest ih => exact ih _ _ (write_wf m a v h)

/-- The empty memory has the canonical form. -/
theorem nil_wf : Memory.wf [] := ⟨List.Pairwise.nil, fun _ h => nomatch h⟩

end Sys2Proof.Machine.Memory
end

