-- ==== Sys2Proof/Laws/State.lean ====
section
/-! SUPPORT. One lemma per field per named update of `State`, true by unfolding the update: no later proof unfolds a
record update. -/

namespace Sys2Proof.Machine.State

variable (s : State)

@[simp] theorem setA_a (v : Byte) : (s.setA v).a = v := rfl
@[simp] theorem setA_b (v : Byte) : (s.setA v).b = s.b := rfl
@[simp] theorem setA_sp (v : Byte) : (s.setA v).sp = s.sp := rfl
@[simp] theorem setA_psw (v : Byte) : (s.setA v).psw = s.psw := rfl
@[simp] theorem setA_pc (v : Byte) : (s.setA v).pc = s.pc := rfl
@[simp] theorem setA_iram (v : Byte) : (s.setA v).iram = s.iram := rfl
@[simp] theorem setA_xdata (v : Byte) : (s.setA v).xdata = s.xdata := rfl
@[simp] theorem setA_xlen (v : Byte) : (s.setA v).xlen = s.xlen := rfl
@[simp] theorem setA_code (v : Byte) : (s.setA v).code = s.code := rfl
@[simp] theorem setA_codeLen (v : Byte) : (s.setA v).codeLen = s.codeLen := rfl
@[simp] theorem setA_err (v : Byte) : (s.setA v).err = s.err := rfl
@[simp] theorem setA_jf (v : Byte) : (s.setA v).jf = s.jf := rfl
@[simp] theorem setA_op (v : Byte) : (s.setA v).op = s.op := rfl
@[simp] theorem setA_whook (v : Byte) : (s.setA v).whook = s.whook := rfl
@[simp] theorem setA_rhook (v : Byte) : (s.setA v).rhook = s.rhook := rfl
@[simp] theorem setA_trace (v : Byte) : (s.setA v).trace = s.trace := rfl

@[simp] theorem setPc_a (v : Word) : (s.setPc v).a = s.a := rfl
@[simp] theorem setPc_b (v : Word) : (s.setPc v).b = s.b := rfl
@[simp] theorem setPc_sp (v : Word) : (s.setPc v).sp = s.sp := rfl
@[simp] theorem setPc_psw (v : Word) : (s.setPc v).psw = s.psw := rfl
@[simp] theorem setPc_pc (v : Word) : (s.setPc v).pc = v := rfl
@[simp] theorem setPc_iram (v : Word) : (s.setPc v).iram = s.iram := rfl
@[simp] theorem setPc_xdata (v : Word) : (s.setPc v).xdata = s.xdata := rfl
@[simp] theorem setPc_xlen (v : Word) : (s.setPc v).xlen = s.xlen := rfl
@[simp] theorem setPc_code (v : Word) : (s.setPc v).code = s.code := rfl
@[simp] theorem setPc_codeLen (v : Word) : (s.setPc v).codeLen = s.codeLen := rfl
@[simp] theorem setPc_err (v : Word) : (s.setPc v).err = s.err := rfl
@[simp] theorem setPc_jf (v : Word) : (s.setPc v).jf = s.jf := rfl
@[simp] theorem setPc_op (v : Word) : (s.setPc v).op = s.op := rfl
@[simp] theorem setPc_whook (v : Word) : (s.setPc v).whook = s.whook := rfl
@[simp] theorem setPc_rhook (v : Word) : (s.setPc v).rhook = s.rhook := rfl
@[simp] theorem setPc_trace (v : Word) : (s.setPc v).trace = s.trace := rfl

@[simp] theorem setIram_a (m : Memory) : (s.setIram m).a = s.a := rfl
@[simp] theorem setIram_b (m : Memory) : (s.setIram m).b = s.b := rfl
@[simp] theorem setIram_sp (m : Memory) : (s.setIram m).sp = s.sp := rfl
@[simp] theorem setIram_psw (m : Memory) : (s.setIram m).psw = s.psw := rfl
@[simp] theorem setIram_pc (m : Memory) : (s.setIram m).pc = s.pc := rfl
@[simp] theorem setIram_iram (m : Memory) : (s.setIram m).iram = m := rfl
@[simp] theorem setIram_xdata (m : Memory) : (s.setIram m).xdata = s.xdata := rfl
@[simp] theorem setIram_xlen (m : Memory) : (s.setIram m).xlen = s.xlen := rfl
@[simp] theorem setIram_code (m : Memory) : (s.setIram m).code = s.code := rfl
@[simp] theorem setIram_codeLen (m : Memory) : (s.setIram m).codeLen = s.codeLen := rfl
@[simp] theorem setIram_err (m : Memory) : (s.setIram m).err = s.err := rfl
@[simp] theorem setIram_jf (m : Memory) : (s.setIram m).jf = s.jf := rfl
@[simp] theorem setIram_op (m : Memory) : (s.setIram m).op = s.op := rfl
@[simp] theorem setIram_whook (m : Memory) : (s.setIram m).whook = s.whook := rfl
@[simp] theorem setIram_rhook (m : Memory) : (s.setIram m).rhook = s.rhook := rfl
@[simp] theorem setIram_trace (m : Memory) : (s.setIram m).trace = s.trace := rfl

@[simp] theorem setXdata_a (m : Memory) : (s.setXdata m).a = s.a := rfl
@[simp] theorem setXdata_b (m : Memory) : (s.setXdata m).b = s.b := rfl
@[simp] theorem setXdata_sp (m : Memory) : (s.setXdata m).sp = s.sp := rfl
@[simp] theorem setXdata_psw (m : Memory) : (s.setXdata m).psw = s.psw := rfl
@[simp] theorem setXdata_pc (m : Memory) : (s.setXdata m).pc = s.pc := rfl
@[simp] theorem setXdata_iram (m : Memory) : (s.setXdata m).iram = s.iram := rfl
@[simp] theorem setXdata_xdata (m : Memory) : (s.setXdata m).xdata = m := rfl
@[simp] theorem setXdata_xlen (m : Memory) : (s.setXdata m).xlen = s.xlen := rfl
@[simp] theorem setXdata_code (m : Memory) : (s.setXdata m).code = s.code := rfl
@[simp] theorem setXdata_codeLen (m : Memory) : (s.setXdata m).codeLen = s.codeLen := rfl
@[simp] theorem setXdata_err (m : Memory) : (s.setXdata m).err = s.err := rfl
@[simp] theorem setXdata_jf (m : Memory) : (s.setXdata m).jf = s.jf := rfl
@[simp] theorem setXdata_op (m : Memory) : (s.setXdata m).op = s.op := rfl
@[simp] theorem setXdata_whook (m : Memory) : (s.setXdata m).whook = s.whook := rfl
@[simp] theorem setXdata_rhook (m : Memory) : (s.setXdata m).rhook = s.rhook := rfl
@[simp] theorem setXdata_trace (m : Memory) : (s.setXdata m).trace = s.trace := rfl

@[simp] theorem setErr_a (e : Err) : (s.setErr e).a = s.a := rfl
@[simp] theorem setErr_b (e : Err) : (s.setErr e).b = s.b := rfl
@[simp] theorem setErr_sp (e : Err) : (s.setErr e).sp = s.sp := rfl
@[simp] theorem setErr_psw (e : Err) : (s.setErr e).psw = s.psw := rfl
@[simp] theorem setErr_pc (e : Err) : (s.setErr e).pc = s.pc := rfl
@[simp] theorem setErr_iram (e : Err) : (s.setErr e).iram = s.iram := rfl
@[simp] theorem setErr_xdata (e : Err) : (s.setErr e).xdata = s.xdata := rfl
@[simp] theorem setErr_xlen (e : Err) : (s.setErr e).xlen = s.xlen := rfl
@[simp] theorem setErr_code (e : Err) : (s.setErr e).code = s.code := rfl
@[simp] theorem setErr_codeLen (e : Err) : (s.setErr e).codeLen = s.codeLen := rfl
@[simp] theorem setErr_err (e : Err) : (s.setErr e).err = e := rfl
@[simp] theorem setErr_jf (e : Err) : (s.setErr e).jf = s.jf := rfl
@[simp] theorem setErr_op (e : Err) : (s.setErr e).op = s.op := rfl
@[simp] theorem setErr_whook (e : Err) : (s.setErr e).whook = s.whook := rfl
@[simp] theorem setErr_rhook (e : Err) : (s.setErr e).rhook = s.rhook := rfl
@[simp] theorem setErr_trace (e : Err) : (s.setErr e).trace = s.trace := rfl

@[simp] theorem setJf_a (v : Bool) : (s.setJf v).a = s.a := rfl
@[simp] theorem setJf_b (v : Bool) : (s.setJf v).b = s.b := rfl
@[simp] theorem setJf_sp (v : Bool) : (s.setJf v).sp = s.sp := rfl
@[simp] theorem setJf_psw (v : Bool) : (s.setJf v).psw = s.psw := rfl
@[simp] theorem setJf_pc (v : Bool) : (s.setJf v).pc = s.pc := rfl
@[simp] theorem setJf_iram (v : Bool) : (s.setJf v).iram = s.iram := rfl
@[simp] theorem setJf_xdata (v : Bool) : (s.setJf v).xdata = s.xdata := rfl
@[simp] theorem setJf_xlen (v : Bool) : (s.setJf v).xlen = s.xlen := rfl
@[simp] theorem setJf_code (v : Bool) : (s.setJf v).code = s.code := rfl
@[simp] theorem setJf_codeLen (v : Bool) : (s.setJf v).codeLen = s.codeLen := rfl
@[simp] theorem setJf_err (v : Bool) : (s.setJf v).err = s.err := rfl
@[simp] theorem setJf_jf (v : Bool) : (s.setJf v).jf = v := rfl
@[simp] theorem setJf_op (v : Bool) : (s.setJf v).op = s.op := rfl
@[simp] theorem setJf_whook (v : Bool) : (s.setJf v).whook = s.whook := rfl
@[simp] theorem setJf_rhook (v : Bool) : (s.setJf v).rhook = s.rhook := rfl
@[simp] theorem setJf_trace (v : Bool) : (s.setJf v).trace = s.trace := rfl

@[simp] theorem setOp_a (v : OperandBuffer) : (s.setOp v).a = s.a := rfl
@[simp] theorem setOp_b (v : OperandBuffer) : (s.setOp v).b = s.b := rfl
@[simp] theorem setOp_sp (v : OperandBuffer) : (s.setOp v).sp = s.sp := rfl
@[simp] theorem setOp_psw (v : OperandBuffer) : (s.setOp v).psw = s.psw := rfl
@[simp] theorem setOp_pc (v : OperandBuffer) : (s.setOp v).pc = s.pc := rfl
@[simp] theorem setOp_iram (v : OperandBuffer) : (s.setOp v).iram = s.iram := rfl
@[simp] theorem setOp_xdata (v : OperandBuffer) : (s.setOp v).xdata = s.xdata := rfl
@[simp] theorem setOp_xlen (v : OperandBuffer) : (s.setOp v).xlen = s.xlen := rfl
@[simp] theorem setOp_code (v : OperandBuffer) : (s.setOp v).code = s.code := rfl
@[simp] theorem setOp_codeLen (v : OperandBuffer) : (s.setOp v).codeLen = s.codeLen := rfl
@[simp] theorem setOp_err (v : OperandBuffer) : (s.setOp v).err = s.err := rfl
@[simp] theorem setOp_jf (v : OperandBuffer) : (s.setOp v).jf = s.jf := rfl
@[simp] theorem setOp_op (v : OperandBuffer) : (s.setOp v).op = v := rfl
@[simp] theorem setOp_whook (v : OperandBuffer) : (s.setOp v).whook = s.whook := rfl
@[simp] theorem setOp_rhook (v : OperandBuffer) : (s.setOp v).rhook = s.rhook := rfl
@[simp] theorem setOp_trace (v : OperandBuffer) : (s.setOp v).trace = s.trace := rfl

@[simp] theorem pushEvent_a (e : HookEvent) : (s.pushEvent e).a = s.a := rfl
@[simp] theorem pushEvent_b (e : HookEvent) : (s.pushEvent e).b = s.b := rfl
@[simp] theorem pushEvent_sp (e : HookEvent) : (s.pushEvent e).sp = s.sp := rfl
@[simp] theorem pushEvent_psw (e : HookEvent) : (s.pushEvent e).psw = s.psw := rfl
@[simp] theorem pushEvent_pc (e : HookEvent) : (s.pushEvent e).pc = s.pc := rfl
@[simp] theorem pushEvent_iram (e : HookEvent) : (s.pushEvent e).iram = s.iram := rfl
@[simp] theorem pushEvent_xdata (e : HookEvent) : (s.pushEvent e).xdata = s.xdata := rfl
@[simp] theorem pushEvent_xlen (e : HookEvent) : (s.pushEvent e).xlen = s.xlen := rfl
@[simp] theorem pushEvent_code (e : HookEvent) : (s.pushEvent e).code = s.code := rfl
@[simp] theorem pushEvent_codeLen (e : HookEvent) : (s.pushEvent e).codeLen = s.codeLen := rfl
@[simp] theorem pushEvent_err (e : HookEvent) : (s.pushEvent e).err = s.err := rfl
@[simp] theorem pushEvent_jf (e : HookEvent) : (s.pushEvent e).jf = s.jf := rfl
@[simp] theorem pushEvent_op (e : HookEvent) : (s.pushEvent e).op = s.op := rfl
@[simp] theorem pushEvent_whook (e : HookEvent) : (s.pushEvent e).whook = s.whook := rfl
@[simp] theorem pushEvent_rhook (e : HookEvent) : (s.pushEvent e).rhook = s.rhook := rfl
@[simp] theorem pushEvent_trace (e : HookEvent) : (s.pushEvent e).trace = s.trace ++ [e] := rfl

end Sys2Proof.Machine.State
end

