-- ==== Sys2Proof/Laws/Ops.lean ====
section
/-! SUPPORT. One lemma per shared operation that says all it does; the meanings' and the step's proofs cite these. -/

namespace Sys2Proof.Machine

variable (s : State)

/-! ### IRAM -/

/-- The plain store changes IRAM and nothing else. -/
theorem writeIram_eq (a v : Byte) : writeIram a v s = { s with iram := s.iram.write a.toNat v } := rfl

/-- A read of IRAM after a plain store. -/
theorem readIram_writeIram (a v b : Byte) : readIram (writeIram a v s) b = if b = a then v else readIram s b := by
  simp only [readIram, writeIram_eq, Memory.read_write, BitVec.toNat_inj]

@[simp] theorem readIram_writeIram_same (a v : Byte) : readIram (writeIram a v s) a = v := by
  simp [readIram_writeIram]

theorem readIram_writeIram_other (a v b : Byte) (h : b ≠ a) : readIram (writeIram a v s) b = readIram s b := by
  simp [readIram_writeIram, h]

/-- The events a hooked store emits: one where a hook is present, else none (20_memory.md rule R50). -/
def hookEvents (a v : Byte) (s : State) : List HookEvent := if a ∈ s.whook then [⟨a, v⟩] else []

/-- The hooked store changes IRAM and the trace and nothing else (20_memory.md rule R50). -/
theorem directStore_eq (a v : Byte) : directStore a v s =
    { s with iram := s.iram.write a.toNat v, trace := s.trace ++ hookEvents a v s } := by
  unfold directStore notifyHook hookEvents
  split
  · rfl
  · rw [List.append_nil]; rfl

/-- A read of IRAM after a hooked store. -/
theorem readIram_directStore (a v b : Byte) : readIram (directStore a v s) b = if b = a then v else readIram s b := by
  rw [← readIram_writeIram s]
  simp only [readIram, directStore_eq, writeIram_eq]

/-! ### Registers and the data pointer -/

/-- The register address as a number (10_state.md rule R19). -/
theorem regAddrIn_toNat (bank : BitVec 2) (n : BitVec 3) : (regAddrIn bank n).toNat = bank.toNat * 8 + n.toNat := by
  have hb := bank.isLt
  have hn := n.isLt
  simp only [regAddrIn, BitVec.toNat_add, BitVec.toNat_mul, BitVec.toNat_setWidth]
  simp
  omega

/-- Writing the data pointer changes IRAM and nothing else. -/
theorem writeDptr_eq (w : Word) : writeDptr w s =
    { s with iram := (s.iram.write dphAddr.toNat (hi8 w)).write dplAddr.toNat (lo8 w) } := rfl

/-- A read of IRAM after a write of the data pointer (10_state.md rule R20). -/
theorem readIram_writeDptr (w : Word) (b : Byte) : readIram (writeDptr w s) b =
    if b = dplAddr then lo8 w else if b = dphAddr then hi8 w else readIram s b := by
  simp only [writeDptr, readIram_writeIram]

@[simp] theorem readDptr_writeDptr (w : Word) : readDptr (writeDptr w s) = w := by
  have h : dphAddr ≠ dplAddr := by decide
  simp [readDptr, readIram_writeDptr, h]

/-! ### XDATA -/

/-- An external store in range changes XDATA and nothing else. -/
theorem writeXdata_in_range (d : Word) (v : Byte) (h : d.toNat < s.xlen) :
    writeXdata d v s = { s with xdata := s.xdata.write d.toNat v } := by
  rw [writeXdata, if_pos h]; rfl

/-- An external store out of range changes nothing (20_memory.md rule R49). -/
theorem writeXdata_out_of_range (d : Word) (v : Byte) (h : ¬d.toNat < s.xlen) : writeXdata d v s = s := by
  rw [writeXdata, if_neg h]

/-! ### Jump, error entry, reset, the end of a step -/

theorem jump_eq (t : Word) : jump t s = { s with pc := t, jf := true } := rfl

theorem raise_eq (e : Err) : raise e s = { s with err := e } := rfl

theorem storeOperands_eq (r : List Byte) : storeOperands r s =
    { s with op := ⟨r.getD 0 s.op.b0, r.getD 1 s.op.b1, r.getD 2 s.op.b2, r.getD 3 s.op.b3⟩ } := rfl

/-- Everything the end of a step can do. -/
theorem finishStep_cases (L : Nat) :
    (s.pc.toNat + 1 + L > 0xFFFF ∧ finishStep L s = raise .codeOutOfRange s) ∨
    (s.pc.toNat + 1 + L ≤ 0xFFFF ∧ s.jf = true ∧ finishStep L s = s.setJf false) ∨
    (s.pc.toNat + 1 + L ≤ 0xFFFF ∧ s.jf = false ∧ finishStep L s = s.setPc (s.pc + BitVec.ofNat 16 (1 + L))) := by
  unfold finishStep
  by_cases h : s.pc.toNat + 1 + L > 0xFFFF
  · exact .inl ⟨h, if_pos h⟩
  · rw [if_neg h]
    cases hj : s.jf
    · exact .inr (.inr ⟨by omega, rfl, rfl⟩)
    · exact .inr (.inl ⟨by omega, rfl, rfl⟩)

/-- The end of a step changes at most `pc`, `JF` and `ERR`. -/
theorem finishStep_frame (L : Nat) : ∃ pc jf err, finishStep L s = { s with pc := pc, jf := jf, err := err } := by
  obtain ⟨-, h⟩ | ⟨-, -, h⟩ | ⟨-, -, h⟩ := finishStep_cases s L <;> exact ⟨_, _, _, h⟩

/-- Power-on with nothing loaded and zero contents is the reset state. -/
theorem powerOn_reset : powerOn [] 0 [] ⟨0, 0, 0, 0⟩ = State.reset := rfl

/-! ### The code-fetch port -/

theorem codeFetch_some {addr : Word} {n : Nat} {r : List Byte} (h : codeFetch s addr n = some r) :
    addr.toNat + n ≤ s.codeLen ∧ r = (List.range n).map fun k => s.code.read (addr.toNat + k) := by
  unfold codeFetch at h
  split at h
  · simp at h
  · exact ⟨by omega, by simpa using h.symm⟩

/-- A fetch delivers as many bytes as were asked for. -/
theorem codeFetch_length {addr : Word} {n : Nat} {r : List Byte} (h : codeFetch s addr n = some r) : r.length = n := by
  simp [(codeFetch_some s h).2]

theorem fetchOperands_length {L : Nat} {r : List Byte} (h : fetchOperands s L = some r) : r.length = L := by
  unfold fetchOperands at h
  split at h
  · next h0 => rw [h0, ← Option.some.inj h]; rfl
  · exact codeFetch_length s h

/-- An opcode fetch delivers one byte, the one at `pc`, and fails exactly at `pc >= CODE_LEN` (rule R92). -/
theorem codeFetch_one : codeFetch s s.pc 1 = if s.pc.toNat < s.codeLen then some [s.code.read s.pc.toNat] else none := by
  unfold codeFetch
  by_cases h : s.pc.toNat < s.codeLen
  · rw [if_neg (by omega), if_pos h]; rfl
  · rw [if_pos (by omega), if_neg h]

end Sys2Proof.Machine
end

