-- ==== Sys2Proof/Laws/PerInstr.lean ====
section
/-! SUPPORT. The per-instruction family `EncodingWellFormed`: the bytes the encoder gives an instruction are a defined
opcode and exactly the operand bytes its descriptor declares (30_encoding.md rules R70, R74, R83). -/

namespace Sys2Proof.Laws.EncodingWellFormed

/-- The instruction's encoding is well formed. -/
def Statement (i : Instr) : Prop := i.wellFormed = true

/-- An instruction whose encoded opcode has a descriptor with as many operand bytes as were encoded is well formed. -/
theorem of_desc {i : Instr} {op : Byte} {ops : List Byte} {d : Descriptor} (he : encode i = op :: ops)
    (hd : desc op = some d) (hl : ops.length = d.operandLength) : Statement i := by
  simp [Statement, Instr.wellFormed, Instr.raw, RawInstr.wellFormed, RawInstr.opcodeDefined,
    RawInstr.operandCountOk, he, hd, hl]

theorem nop : Statement (.nop) := of_desc rfl desc_nop rfl
theorem ljmp (addr : Word) : Statement (.ljmp addr) := of_desc rfl desc_ljmp rfl
theorem movDirectImm (direct data : Byte) : Statement (.movDirectImm direct data) := of_desc rfl desc_movDirectImm rfl
theorem movRnImm (n : BitVec 3) (data : Byte) : Statement (.movRnImm n data) := of_desc rfl (desc_movRnImm n) rfl
theorem sjmp (rel : Byte) : Statement (.sjmp rel) := of_desc rfl desc_sjmp rfl
theorem movDptrImm (data : Word) : Statement (.movDptrImm data) := of_desc rfl desc_movDptrImm rfl
theorem incDptr : Statement (.incDptr) := of_desc rfl desc_incDptr rfl
theorem clrBit (direct : Byte) : Statement (.clrBit direct) := of_desc rfl desc_clrBit rfl
theorem setbBit (direct : Byte) : Statement (.setbBit direct) := of_desc rfl desc_setbBit rfl
theorem djnz (n : BitVec 3) (rel : Byte) : Statement (.djnz n rel) := of_desc rfl (desc_djnz n) rfl
theorem clrA : Statement (.clrA) := of_desc rfl desc_clrA rfl
theorem movxDptrA : Statement (.movxDptrA) := of_desc rfl desc_movxDptrA rfl
theorem movRiA (i : BitVec 1) : Statement (.movRiA i) := of_desc rfl (desc_movRiA i) rfl

end Sys2Proof.Laws.EncodingWellFormed
end

