-- ==== Sys2Proof/Laws/Step.lean ====
section
/-! SUPPORT. What the front end, a handler and a step can do, once. -/

namespace Sys2Proof.Machine

open Sys2Proof.Safety

variable {s t : State}

/-- Every outcome of stages 1 to 4 (40_step_cycle.md rules R91 to R94). -/
theorem frontEnd_cases (s : State) :
    (s.err ≠ .ok ∧ frontEnd s = .terminal) ∨
    (s.err = .ok ∧ codeFetch s s.pc 1 = none ∧ frontEnd s = .error .codeOutOfRange) ∨
    (∃ op, s.err = .ok ∧ codeFetch s s.pc 1 = some [op] ∧ desc op = none ∧
      frontEnd s = .error .unknownInstruction) ∨
    (∃ op d, s.err = .ok ∧ codeFetch s s.pc 1 = some [op] ∧ desc op = some d ∧
      fetchOperands s d.operandLength = none ∧ frontEnd s = .error .codeOutOfRange) ∨
    (∃ op d ops, s.err = .ok ∧ codeFetch s s.pc 1 = some [op] ∧ desc op = some d ∧
      fetchOperands s d.operandLength = some ops ∧
      frontEnd s = .ready (build d.kind op (ops.getD 0 0) (ops.getD 1 0)) d.operandLength ops) := by
  by_cases he : s.err = .ok
  · right
    by_cases hpc : s.pc.toNat < s.codeLen
    · right
      have hf : codeFetch s s.pc 1 = some [s.code.read s.pc.toNat] := by rw [codeFetch_one, if_pos hpc]
      cases hd : desc (s.code.read s.pc.toNat) with
      | none => exact .inl ⟨_, he, hf, hd, by simp [frontEnd, he, hf, hd]⟩
      | some d =>
        right
        cases ho : fetchOperands s d.operandLength with
        | none => exact .inl ⟨_, d, he, hf, hd, ho, by simp [frontEnd, he, hf, hd, ho]⟩
        | some ops => exact .inr ⟨_, d, ops, he, hf, hd, ho, by simp [frontEnd, he, hf, hd, ho]⟩
    · have hf : codeFetch s s.pc 1 = none := by rw [codeFetch_one, if_neg hpc]
      exact .inl ⟨he, hf, by simp [frontEnd, he, hf]⟩
  · exact .inl ⟨he, by simp [frontEnd, he]⟩

/-- What the front end hands on is what the decoder reads from the fetched bytes, with the instruction's own operand
length. -/
theorem frontEnd_ready_decodes {i : Instr} {L : Nat} {ops : List Byte} (h : frontEnd s = .ready i L ops) :
    s.err = .ok ∧ L = operandLength i ∧ FetchesAs s ops i := by
  obtain ⟨-, hf⟩ | ⟨-, -, hf⟩ | ⟨_, -, -, -, hf⟩ | ⟨_, _, -, -, -, -, hf⟩ | ⟨op, d, ops', he, ho, hd, hops, hf⟩ :=
    frontEnd_cases s <;> rw [hf] at h
  · simp at h
  · simp at h
  · simp at h
  · simp at h
  · simp only [Front.ready.injEq] at h
    obtain ⟨rfl, rfl, rfl⟩ := h
    have hlen := fetchOperands_length s hops
    have hL := operandLength_build hd (ops'.getD 0 0) (ops'.getD 1 0)
    refine ⟨he, hL.symm, op, ho, by rw [hL]; exact hops, ?_⟩
    simp [decode, hd, hlen]

/-- Bytes that decode to an instruction are what the front end hands on. -/
theorem frontEnd_of_fetchesAs {i : Instr} {ops : List Byte} (h : FetchesAs s ops i) (he : s.err = .ok) :
    frontEnd s = .ready i (operandLength i) ops := by
  obtain ⟨op, ho, hops, hdec⟩ := h
  obtain ⟨op', ops', d, hb, hd, -, hi, -⟩ := decode_ok hdec
  obtain ⟨rfl, rfl⟩ := List.cons.inj hb
  subst hi
  rw [operandLength_build hd] at hops ⊢
  simp [frontEnd, he, ho, hd, hops]

/-- The inversion of a step: everything it can do. -/
theorem step_cases (h : step s = .next t) :
    (s.err ≠ .ok ∧ t = s) ∨
    (∃ e, s.err = .ok ∧ frontEnd s = .error e ∧ t = raise e s) ∨
    (∃ i ops u, s.err = .ok ∧ FetchesAs s ops i ∧ exec i (storeOperands ops s) = .next u ∧
      t = finishStep (operandLength i) u) := by
  unfold step at h
  split at h
  · next hf =>
    refine .inl ⟨fun he => ?_, by simpa using h.symm⟩
    simp only [frontEnd, he, if_true] at hf
    repeat (first | split at hf | simp at hf)
  · next e hf =>
    refine .inr (.inl ⟨e, ?_, hf, by simpa using h.symm⟩)
    by_contra he
    simp [frontEnd, he] at hf
  · next i L ops hf =>
    obtain ⟨he, rfl, hfa⟩ := frontEnd_ready_decodes hf
    split at h
    · next u hu => exact .inr (.inr ⟨i, ops, u, he, hfa, hu, by simpa using h.symm⟩)
    · simp at h
    · simp at h

/-- Everything a handler can do, outside memory, `A`, `pc`, `JF` and the trace: nothing. -/
theorem exec_frame (i : Instr) (s : State) : ∃ a pc jf iram xdata trace,
    exec i s = .next { s with a := a, pc := pc, jf := jf, iram := iram, xdata := xdata, trace := trace } := by
  cases i with
  | nop => exact ⟨_, _, _, _, _, _, rfl⟩
  | ljmp addr => exact ⟨_, _, _, _, _, _, rfl⟩
  | movDirectImm direct data => exact ⟨_, _, _, _, _, _, by rw [exec, execMovDirectImm, directStore_eq]⟩
  | movRnImm n data => exact ⟨_, _, _, _, _, _, by rw [exec, execMovRnImm, directStore_eq]⟩
  | sjmp rel => exact ⟨_, _, _, _, _, _, rfl⟩
  | movDptrImm data => exact ⟨_, _, _, _, _, _, rfl⟩
  | incDptr => exact ⟨_, _, _, _, _, _, rfl⟩
  | clrBit direct => exact ⟨_, _, _, _, _, _, by rw [exec, execClrBit, directStore_eq]⟩
  | setbBit direct => exact ⟨_, _, _, _, _, _, by rw [exec, execSetbBit, directStore_eq]⟩
  | djnz n rel =>
    simp only [exec, execDjnz]
    split
    · exact ⟨_, _, _, _, _, _, rfl⟩
    · exact ⟨_, _, _, _, _, _, rfl⟩
  | clrA => exact ⟨_, _, _, _, _, _, rfl⟩
  | movxDptrA =>
    simp only [exec, execMovxDptrA, writeXdata]
    split
    · exact ⟨_, _, _, _, _, _, rfl⟩
    · exact ⟨_, _, _, _, _, _, rfl⟩
  | movRiA ri => exact ⟨_, _, _, _, _, _, by rw [exec, execMovRiA, directStore_eq]⟩

/-- Every memory that a handler leaves behind is canonical if the one it found was, and lists only bytes that exist. -/
theorem exec_keeps_memory {i : Instr} (h : exec i s = .next t) (hi : s.iram.wf ∧ s.iram.within Config.iramSize)
    (hx : s.xdata.wf ∧ s.xdata.within s.xlen) :
    (t.iram.wf ∧ t.iram.within Config.iramSize) ∧ (t.xdata.wf ∧ t.xdata.within t.xlen) := by
  have hw : ∀ (m : Memory) (a v : Byte), (m.wf ∧ m.within Config.iramSize) →
      (m.write a.toNat v).wf ∧ (m.write a.toNat v).within Config.iramSize := fun m a v hm =>
    ⟨Memory.write_wf m _ v hm.1, Memory.write_within m _ v hm.2 a.isLt⟩
  cases i with
  | nop => cases h; exact ⟨hi, hx⟩
  | ljmp addr => cases h; exact ⟨hi, hx⟩
  | movDirectImm direct data =>
    rw [exec, execMovDirectImm, directStore_eq] at h; cases h; exact ⟨hw _ _ _ hi, hx⟩
  | movRnImm n data => rw [exec, execMovRnImm, directStore_eq] at h; cases h; exact ⟨hw _ _ _ hi, hx⟩
  | sjmp rel => cases h; exact ⟨hi, hx⟩
  | movDptrImm data => cases h; exact ⟨hw _ _ _ (hw _ _ _ hi), hx⟩
  | incDptr => cases h; exact ⟨hw _ _ _ (hw _ _ _ hi), hx⟩
  | clrBit direct => rw [exec, execClrBit, directStore_eq] at h; cases h; exact ⟨hw s.iram direct 0x00 hi, hx⟩
  | setbBit direct => rw [exec, execSetbBit, directStore_eq] at h; cases h; exact ⟨hw s.iram direct 0x01 hi, hx⟩
  | djnz n rel =>
    simp only [exec, execDjnz] at h
    split at h
    · cases h; exact ⟨hw _ _ _ hi, hx⟩
    · cases h; exact ⟨hw _ _ _ hi, hx⟩
  | clrA => cases h; exact ⟨hi, hx⟩
  | movxDptrA =>
    simp only [exec, execMovxDptrA, writeXdata] at h
    split at h
    · next hd => cases h; exact ⟨hi, Memory.write_wf _ _ _ hx.1, Memory.write_within _ _ _ hx.2 hd⟩
    · cases h; exact ⟨hi, hx⟩
  | movRiA ri => rw [exec, execMovRiA, directStore_eq] at h; cases h; exact ⟨hw _ _ _ hi, hx⟩

end Sys2Proof.Machine
end

