-- ==== Sys2Proof/Tests/Slice0.lean ====
section
/-! SUPPORT. Tests and witnesses. Expected results are the spec's: a vector of spec/95_test_vectors.md is named by its
number there; decode tests write the word out from the patterns of 30_encoding.md rule R81. -/

namespace Sys2Proof.Tests

open Sys2Proof.Machine Sys2Proof.Safety

/-- A state ready to step: `code` at `pc` in a code store of `codeLen` bytes. -/
def at_ (pc : Word) (code : List Byte) (codeLen : Nat) : State :=
  { State.reset with pc := pc, code := Memory.writeBytes [] pc.toNat code, codeLen := codeLen }

/-- The state after one step. -/
def stepped (s : State) : Option State :=
  match step s with
  | .next t => some t
  | .fault _ => none
  | .refused _ => none

/-- What a test looks at: `ERR`, `pc`, `JF`. -/
def flow (s : State) : Option (Err × Word × Bool) := (stepped s).map fun t => (t.err, t.pc, t.jf)

/-- What a test looks at: `pc`, one IRAM byte, the trace. -/
def shown (a : Byte) (s : State) : Option (Word × Byte × List HookEvent) :=
  (stepped s).map fun t => (t.pc, readIram t a, t.trace)

/-! ### Well-formedness: each check refuses an ill-formed term -/

theorem test_wellFormed_accepts : (⟨0x02, [0x12, 0x34]⟩ : RawInstr).wellFormed = true := by decide
theorem test_check1_refuses_undefined_opcode : (⟨0xA5, []⟩ : RawInstr).opcodeDefined = false := by decide
theorem test_wellFormed_refuses_undefined_opcode : (⟨0xA5, []⟩ : RawInstr).wellFormed = false := by decide
theorem test_check2_refuses_missing_operand : (⟨0x02, [0x12]⟩ : RawInstr).operandCountOk = false := by decide
theorem test_wellFormed_refuses_missing_operand : (⟨0x02, [0x12]⟩ : RawInstr).wellFormed = false := by decide
theorem test_wellFormed_refuses_extra_operand : (⟨0x00, [0x00]⟩ : RawInstr).wellFormed = false := by decide

/-! ### Decoding: one word per constructor, bit by bit from rule R81 -/

theorem test_decode_nop : decode [0b00000000] = .ok (.nop, []) := by decide
theorem test_decode_ljmp : decode [0b00000010, 0b00010010, 0b00110100] = .ok (.ljmp 0x1234, []) := by decide
theorem test_decode_movDirectImm :
    decode [0b01110101, 0b10000000, 0b10101010] = .ok (.movDirectImm 0x80 0xAA, []) := by decide
theorem test_decode_movRnImm : decode [0b01111010, 0b00000011] = .ok (.movRnImm 2 0x03, []) := by decide
theorem test_decode_sjmp : decode [0b10000000, 0b11111101] = .ok (.sjmp 0xFD, []) := by decide
theorem test_decode_movDptrImm :
    decode [0b10010000, 0b00010010, 0b00110100] = .ok (.movDptrImm 0x1234, []) := by decide
theorem test_decode_incDptr : decode [0b10100011] = .ok (.incDptr, []) := by decide
theorem test_decode_clrBit : decode [0b11000010, 0b00110000] = .ok (.clrBit 0x30, []) := by decide
theorem test_decode_setbBit : decode [0b11010010, 0b00110000] = .ok (.setbBit 0x30, []) := by decide
theorem test_decode_djnz : decode [0b11011111, 0b00010000] = .ok (.djnz 7 0x10, []) := by decide
theorem test_decode_clrA : decode [0b11100100] = .ok (.clrA, []) := by decide
theorem test_decode_movxDptrA : decode [0b11110000] = .ok (.movxDptrA, []) := by decide
theorem test_decode_movRiA : decode [0b11110111] = .ok (.movRiA 1, []) := by decide
theorem test_decode_undefined : decode [0xA5, 0x00] = .error (.undefinedOpcode 0xA5) := by decide
theorem test_decode_truncated : decode [0x02, 0x12] = .error (.truncated 0x02) := by decide
theorem test_table_word : decodeTableWord 24 0x341202 = some (.ljmp 0x1234) := by decide
theorem test_table_word_short : decodeTableWord 8 0x341202 = some (.ljmp 0x0000) := by decide

/-! ### The step machine (vectors M1 to M18, S9) -/

theorem test_M1 : flow (at_ 0 [] 0) = some (.codeOutOfRange, 0, false) := by decide
theorem test_M4 : flow (at_ 0 [0x02, 0x12] 2) = some (.codeOutOfRange, 0, false) := by decide
theorem test_M6 : flow (at_ 0 [0x01] 1) = some (.unknownInstruction, 0, false) := by decide
theorem test_M8 :
    let s := { at_ 0xFFFE [0x00] 65536 with err := .codeOutOfRange, jf := true }
    stepped s = some s := by decide
theorem test_M9 : flow (at_ 0xFFFE [0x00] 65536) = some (.ok, 0xFFFF, false) := by decide
theorem test_M11 :
    (stepped { at_ 0xFFFF [0xE4] 65536 with a := 0x33 }).map (fun t => (t.a, t.err, t.pc)) =
      some (0x00, .codeOutOfRange, 0xFFFF) := by decide
theorem test_M12 : flow (at_ 0 [0x02, 0xFF, 0xFE] 65536) = some (.codeOutOfRange, 0xFFFE, true) := by decide
theorem test_M13 : flow (at_ 0 [0x02, 0xFF, 0xFC] 65536) = some (.ok, 0xFFFC, false) := by decide
theorem test_M15 : flow (at_ 0xFFFE [0x80, 0xFE] 65536) = some (.codeOutOfRange, 0xFFFE, true) := by decide
theorem test_M17 :
    let s := at_ 0xFFFF [0x7A] 65536
    shown 0x02 { s with code := s.code.write 0 0x42 } = some (0xFFFF, 0x42, []) := by decide
theorem test_operands_go_to_OP :
    (stepped (at_ 0 [0x02, 0x12, 0x34] 3)).map (·.op) = some ⟨0x12, 0x34, 0, 0⟩ := by decide

/-! ### Instructions (vectors J, V, B) -/

theorem test_J1_nop : flow (at_ 0x0010 [0x00] 65536) = some (.ok, 0x0011, false) := by decide
theorem test_J4_ljmp : flow (at_ 0 [0x02, 0x80, 0x00] 3) = some (.ok, 0x8000, false) := by decide
theorem test_J8_sjmp : flow (at_ 0x0100 [0x80, 0x80] 65536) = some (.ok, 0x0082, false) := by decide
theorem test_J11_sjmp_wraps : flow (at_ 0 [0x80, 0xFB] 65536) = some (.ok, 0xFFFD, false) := by decide
theorem test_J15_djnz_wraps :
    shown 0x02 { at_ 0x0003 [0xDA, 0xFE] 5 with iram := [(0x02, 0x00)] } = some (0x0003, 0xFF, []) := by decide
theorem test_J18_djnz_bank :
    shown 0x1D { at_ 0x0040 [0xDD, 0x7F] 65536 with psw := 0xFF, iram := [(0x1D, 0x01)], whook := [0x1D] } =
      some (0x0042, 0x00, []) := by decide
theorem test_V1_movDirect :
    shown 0x80 { at_ 0 [0x75, 0x80, 0xAA] 3 with whook := [0x80] } = some (0x0003, 0xAA, [⟨0x80, 0xAA⟩]) := by decide
theorem test_V4_movDirect_not_aliased :
    (stepped { at_ 0 [0x75, 0xE0, 0x77] 3 with a := 0x11 }).map (fun t => (t.a, readIram t 0xE0)) =
      some (0x11, 0x77) := by decide
theorem test_V10_movRn :
    shown 0x12 { at_ 0 [0x7A, 0x11] 2 with psw := 0x10, whook := [0x02, 0x12] } =
      some (0x0002, 0x11, [⟨0x12, 0x11⟩]) := by decide
theorem test_V12_movRn_bank0 : shown 0x00 { at_ 0 [0x78, 0x01] 2 with psw := 0xE7 } = some (0x0002, 0x01, []) := by
  decide
theorem test_V13_movDptr :
    (stepped { at_ 0 [0x90, 0x12, 0x34] 3 with whook := [0x82, 0x83] }).map
      (fun t => (readIram t 0x82, readIram t 0x83, t.trace)) = some (0x12, 0x34, []) := by decide
theorem test_V16_movx_last :
    (stepped { at_ 0 [0xF0] 1 with a := 0x5A, iram := [(0x83, 0xFF)], xlen := 0x100 }).map (·.xdata) =
      some [(0xFF, 0x5A)] := by decide
theorem test_V17_movx_dropped :
    (stepped { at_ 0 [0xF0] 1 with a := 0x5A, iram := [(0x82, 0x01)], xlen := 0x100 }).map
      (fun t => (t.xdata, t.err, t.pc)) = some ([], .ok, 1) := by decide
theorem test_V21_movRi_on_itself :
    shown 0x00 { at_ 0 [0xF6] 1 with a := 0x5A } = some (0x0001, 0x5A, []) := by decide
theorem test_V20_movRi :
    shown 0x30 { at_ 0 [0xF7] 1 with iram := [(0x01, 0x30), (0x30, 0x77)], whook := [0x30] } =
      some (0x0001, 0x00, [⟨0x30, 0x00⟩]) := by decide
theorem test_B3_incDptr :
    (stepped { at_ 0 [0xA3] 1 with iram := [(0x82, 0x12), (0x83, 0xFF)] }).map
      (fun t => (readIram t 0x82, readIram t 0x83)) = some (0x13, 0x00) := by decide
theorem test_B4_incDptr_wraps :
    (stepped { at_ 0 [0xA3] 1 with iram := [(0x82, 0xFF), (0x83, 0xFF)] }).map (fun t => (t.iram, t.psw, t.err)) =
      some ([], 0x00, .ok) := by decide
theorem test_B6_clrBit :
    shown 0x30 { at_ 0 [0xC2, 0x30] 2 with iram := [(0x30, 0xA7)], whook := [0x30] } =
      some (0x0002, 0x00, [⟨0x30, 0x00⟩]) := by decide
theorem test_B9_clrBit_not_CY :
    (stepped { at_ 0 [0xC2, 0xD7] 2 with psw := 0x80, iram := [(0xD7, 0x55)] }).map (fun t => (t.psw, t.iram)) =
      some (0x80, []) := by decide
theorem test_B7_setbBit :
    shown 0x30 { at_ 0 [0xD2, 0x30] 2 with iram := [(0x30, 0xA6)] } = some (0x0002, 0x01, []) := by decide
theorem test_B8_setbBit_event_again :
    shown 0x30 { at_ 0 [0xD2, 0x30] 2 with iram := [(0x30, 0x01)], whook := [0x30] } =
      some (0x0002, 0x01, [⟨0x30, 0x01⟩]) := by decide
theorem test_B12_clrA :
    (stepped { at_ 0 [0xE4] 1 with a := 0x5C, psw := 0x01, iram := [(0xE0, 0x99)] }).map
      (fun t => (t.a, t.psw, readIram t 0xE0, t.pc)) = some (0x00, 0x01, 0x99, 1) := by decide

/-! ### Reset, host, load (vectors H1 to H5) -/

theorem test_H1_reset :
    resetCore [(0x30, 0x77)] ⟨1, 2, 3, 4⟩
      { State.reset with a := 0x5A, b := 1, sp := 2, psw := 0x18, pc := 0x0123, err := .unknownInstruction,
                         xdata := [(0, 0x11)], xlen := 1, whook := [0x80] } =
      { State.reset with iram := [(0x30, 0x77)], op := ⟨1, 2, 3, 4⟩, xdata := [(0, 0x11)], xlen := 1,
                         whook := [0x80] } := by decide
theorem test_H2_hostReadReg :
    hostReadReg 3 { State.reset with psw := 0x10, iram := [(0x13, 0x44)] } = .ok 0x44 := by decide
theorem test_H4_hostWriteDptr : (hostWriteDptr 0xBEEF State.reset).iram = [(0x82, 0xBE), (0x83, 0xEF)] := by decide
theorem test_loaded_word_runs_first :
    flow (State.reset.withFetchWord 24 0x341202) = some (.ok, 0x1234, false) := by decide
theorem test_psw_fields : pswOfFields true false false 2 false false true = 0x91 := by decide

/-! ### Witnesses: states and operands that meet the hypotheses of a statement together, clause by clause -/

theorem witness_EncodeInvertsDecode : decode [0xD8, 0xFC, 0x00] = .ok (.djnz 0 0xFC, [0x00]) := by decide
theorem witness_ProperPrefixIsTruncated :
    (0 < 1 ∧ 1 < (encode (.sjmp 0xFD)).length) ∧ (0 < 2 ∧ 2 < (encode (.ljmp 0x1234)).length) := by decide
theorem witness_TerminalStepChangesNothing_StoppedCoreNeverChanges :
    ({ State.reset with err := .unknownInstruction } : State).err ≠ .ok := by decide

theorem fetches_nop_at_FFFE : FetchesAs (at_ 0xFFFE [0x00] 65536) [] .nop := ⟨0x00, by decide, by decide, by decide⟩
theorem fetches_clrA_at_FFFF : FetchesAs (at_ 0xFFFF [0xE4] 65536) [] .clrA := ⟨0xE4, by decide, by decide, by decide⟩
theorem fetches_ljmp_FFFC : FetchesAs (at_ 0 [0x02, 0xFF, 0xFC] 65536) [0xFF, 0xFC] (.ljmp 0xFFFC) :=
  ⟨0x02, by decide, by decide, by decide⟩
theorem fetches_ljmp_FFFE : FetchesAs (at_ 0 [0x02, 0xFF, 0xFE] 65536) [0xFF, 0xFE] (.ljmp 0xFFFE) :=
  ⟨0x02, by decide, by decide, by decide⟩
theorem fetches_ljmp_self : FetchesAs (at_ 0xFFFC [0x02, 0xFF, 0xFC] 65536) [0xFF, 0xFC] (.ljmp 0xFFFC) :=
  ⟨0x02, by decide, by decide, by decide⟩
theorem fetches_sjmp_self : FetchesAs (at_ 0xFFFD [0x80, 0xFE] 65536) [0xFE] (.sjmp 0xFE) :=
  ⟨0x80, by decide, by decide, by decide⟩

theorem witness_StepRunsTheDecodedInstruction :
    (at_ 0 [0x02, 0xFF, 0xFC] 65536).err = .ok ∧ FetchesAs (at_ 0 [0x02, 0xFF, 0xFC] 65536) [0xFF, 0xFC] (.ljmp 0xFFFC) :=
  ⟨rfl, fetches_ljmp_FFFC⟩
theorem witness_OpcodeFetchPastBoundStops :
    (at_ 3 [] 3).err = .ok ∧ (at_ 3 [] 3).codeLen ≤ (at_ 3 [] 3).pc.toNat := by decide
/-- One byte short of the operands, and at `pc = 0xFFFE`, where no bound suffices. -/
theorem witness_MissingOperandsStop :
    let s := at_ 0 [0x02, 0x12] 2
    let u := at_ 0xFFFE [0x02] 65536
    (s.err = .ok ∧ s.pc.toNat < s.codeLen ∧ desc (s.code.read s.pc.toNat) = some ⟨0xFF, 0x02, 2, .ljmp, "LJMP addr16"⟩ ∧
      s.codeLen < (s.pc.toNat + 1) % 65536 + 2) ∧
    (u.err = .ok ∧ u.pc.toNat < u.codeLen ∧ desc (u.code.read u.pc.toNat) = some ⟨0xFF, 0x02, 2, .ljmp, "LJMP addr16"⟩ ∧
      u.codeLen < (u.pc.toNat + 1) % 65536 + 2) := by decide
theorem witness_UnknownInstructionExactlyAtUndefinedOpcode :
    let s := at_ 0 [0xA5] 1
    s.err = .ok ∧ stepped s = some { s with err := .unknownInstruction } := by decide
theorem witness_CodeOutOfRangeInThreePlaces_fetches :
    (stepped (at_ 0 [] 0)).map (·.err) = some .codeOutOfRange ∧
    (stepped (at_ 0 [0x02, 0x12] 2)).map (·.err) = some .codeOutOfRange := by decide
theorem witness_CodeOutOfRangeInThreePlaces_overflow :
    FetchesAs (at_ 0xFFFF [0xE4] 65536) [] .clrA ∧
    (stepped (at_ 0xFFFF [0xE4] 65536)).map (·.err) = some .codeOutOfRange := ⟨fetches_clrA_at_FFFF, by decide⟩
theorem witness_ErrorEntryKeepsEverythingElse :
    let s := { at_ 0xFFFF [0xE4] 65536 with a := 0x33 }
    s.err = .ok ∧ stepped s = some { s with a := 0, err := .codeOutOfRange } := by decide
/-- A jump whose target is too high, at the lowest such target for three bytes. -/
theorem witness_OverflowAfterHandlerKeepsItsEffects :
    let s := at_ 0 [0x02, 0xFF, 0xFE] 65536
    s.err = .ok ∧ FetchesAs s [0xFF, 0xFE] (.ljmp 0xFFFE) ∧
      ∃ u, exec (.ljmp 0xFFFE) (storeOperands [0xFF, 0xFE] s) = .next u ∧ 0xFFFF < u.pc.toNat + 1 + 2 :=
  ⟨rfl, fetches_ljmp_FFFE, _, rfl, by decide⟩
/-- Both clauses, each at the highest `pc` that does not overflow. -/
theorem witness_PcUpdateAfterHandler :
    (∃ u, exec .nop (storeOperands [] (at_ 0xFFFE [0x00] 65536)) = .next u ∧ u.jf = false ∧
      u.pc.toNat + 1 + operandLength .nop ≤ 0xFFFF) ∧
    (∃ u, exec (.ljmp 0xFFFC) (storeOperands [0xFF, 0xFC] (at_ 0 [0x02, 0xFF, 0xFC] 65536)) = .next u ∧ u.jf = true ∧
      u.pc.toNat + 1 + operandLength (.ljmp 0xFFFC) ≤ 0xFFFF) :=
  ⟨⟨_, rfl, rfl, by decide⟩, _, rfl, rfl, by decide⟩
theorem witness_OnlyJumpsWritePcAndFlag :
    let s := { State.reset with iram := [(0, 1)] }
    jumpTarget (.djnz 0 0x7F) s = none ∧ jumpTarget (.djnz 1 0x7F) s = some 0x0081 := by decide
theorem witness_SettledStepCompletes :
    (let s := at_ 0xFFFE [0x00] 65536
     s.err = .ok ∧ s.jf = false ∧ FetchesAs s [] .nop ∧ Settled .nop s) ∧
    (let s := at_ 0xFFFC [0x02, 0xFF, 0xFC] 65536
     s.err = .ok ∧ s.jf = false ∧ FetchesAs s [0xFF, 0xFC] (.ljmp 0xFFFC) ∧ Settled (.ljmp 0xFFFC) s) := by
  refine ⟨⟨rfl, rfl, fetches_nop_at_FFFE, by decide, fun t h => nomatch h⟩,
    rfl, rfl, fetches_ljmp_self, by decide, fun t h => ?_⟩
  cases h
  decide
theorem witness_CodeFetchIsAllOrNothing :
    let s := at_ 0 [0, 0, 0] 3
    s.codeLen < (2 : Word).toNat + 2 ∧ (2 : Word).toNat + 1 ≤ s.codeLen := by decide
theorem witness_LoadedWordIsFetched :
    decodeTableWord 24 0x341202 = some (.ljmp 0x1234) ∧ ({ State.reset with pc := 0xFFFD } : State).pc.toNat ≤ 0xFFFD := by
  decide
theorem witness_NopResult :
    let s := at_ 0xFFFE [0x00] 65536
    s.err = .ok ∧ s.jf = false ∧ FetchesAs s [] .nop ∧ s.pc.toNat ≤ 0xFFFE := ⟨rfl, rfl, fetches_nop_at_FFFE, by decide⟩
theorem witness_LjmpResult :
    let s := at_ 0 [0x02, 0xFF, 0xFC] 65536
    s.err = .ok ∧ FetchesAs s [0xFF, 0xFC] (.ljmp (word16 0xFF 0xFC)) ∧ (word16 0xFF 0xFC).toNat ≤ 0xFFFC :=
  ⟨rfl, fetches_ljmp_FFFC, by decide⟩
theorem witness_DjnzResult :
    let s := { State.reset with iram := [(0, 1)] }
    readIram s (regAddr s 0) = 1 ∧ readIram s (regAddr s 1) ≠ 1 := by decide
/-- The last stored offset and the first dropped one. -/
theorem witness_MovxResult :
    let s := { State.reset with xlen := 0x100, iram := [(0x83, 0xFF)] }
    let u := { State.reset with xlen := 0x100, iram := [(0x82, 0x01)] }
    (0xFF = (readIram s 0x82).toNat * 256 + (readIram s 0x83).toNat ∧ 0xFF < s.xlen) ∧
    (0x100 = (readIram u 0x82).toNat * 256 + (readIram u 0x83).toNat ∧ u.xlen ≤ 0x100) := by decide
theorem witness_DjnzCountsDown : 2 < (readReg { State.reset with iram := [(2, 3)] } 2).toNat := by decide
theorem witness_UnhookedStoresAgreeUnderGuard :
    ∀ a ∈ ([0x20, 0x81, 0x84] : List Byte), 0x1F < a.toNat ∧ a ≠ 0x82 ∧ a ≠ 0x83 := by decide
theorem witness_CanonicalMemoryIsItsReads :
    Memory.wf [(3, 1), (7, 2)] ∧ Memory.wf (Memory.write (Memory.write [] 7 2) 3 1) ∧
      ∀ a, Memory.read [(3, 1), (7, 2)] a = (Memory.write (Memory.write [] 7 2) 3 1).read a := by
  refine ⟨by decide, by decide, fun a => ?_⟩
  have h : Memory.write (Memory.write [] 7 2) 3 1 = [(3, 1), (7, 2)] := by decide
  rw [h]
theorem witness_StepKeepsInvariant :
    let s := { at_ 0 [0x75, 0x80, 0xAA] 3 with whook := [0x80] }
    Inv s ∧ (stepped s).isSome := by
  refine ⟨⟨by decide, by decide, by decide, by decide, by decide, by decide, .inl rfl, fun h => nomatch h⟩, by decide⟩
theorem witness_HostKeepsInvariant :
    Inv State.reset ∧ Memory.wf [(0xFF, 1)] ∧ Memory.within [(0xFF, 1)] Config.iramSize ∧
      ∃ t, hostWriteReg 7 0x45 State.reset = .next t :=
  ⟨⟨by decide, by decide, by decide, by decide, by decide, by decide, .inl rfl, fun h => nomatch h⟩,
    by decide, by decide, _, rfl⟩
theorem witness_ConfiguredPowerOnSatisfiesInvariant :
    Memory.wf [(2, 0x80)] ∧ Memory.within [(2, 0x80)] 3 ∧ 3 ≤ Config.maxCodeLen ∧ Memory.wf [(0xFF, 1)] ∧
    Memory.within [(0xFF, 1)] Config.iramSize ∧ Memory.wf [(0x1F, 7)] ∧ Memory.within [(0x1F, 7)] 0x20 ∧
    hookSetWf [0x00, 0x80] ∧ hookSetWf [] := by decide
theorem witness_FaultClassExactlyWhenStopped :
    Inv { State.reset with err := .unknownInstruction } ∧
      faultOf { State.reset with err := .unknownInstruction } = some .unknownInstruction :=
  ⟨⟨by decide, by decide, by decide, by decide, by decide, by decide, .inr (.inr rfl), fun h => nomatch h⟩, rfl⟩
/-- A step of each kind that the whole-machine statements speak of: it clears `A`, stores to XDATA, shows an event. -/
theorem witness_whole_machine_steps :
    (stepped { at_ 0 [0xE4] 1 with a := 0x5C }).map (·.a) = some 0x00 ∧
    (stepped { at_ 0 [0xF0] 1 with a := 0x5A, xlen := 1 }).map (·.xdata) = some [(0, 0x5A)] ∧
    (stepped { at_ 0 [0x75, 0x80, 0xAA] 3 with whook := [0x80] }).map (·.trace) = some [⟨0x80, 0xAA⟩] := by decide
theorem witness_XdataOutOfRangeNeverRaised :
    (∃ t, step { State.reset with err := .xdataOutOfRange } = .next t ∧ t.err = .xdataOutOfRange) ∧
    State.reset.xlen ≤ (readDptr State.reset).toNat := ⟨⟨_, rfl, rfl⟩, by decide⟩
theorem witness_UnreadStateHasNoInfluence :
    pswBank 0xE7 = pswBank State.reset.psw ∧ (stepped (at_ 0 [0x78, 0x01] 2)).isSome := by decide
theorem witness_SelfJumpRests :
    (let s := at_ 0xFFFC [0x02, 0xFF, 0xFC] 65536
     s.err = .ok ∧ s.jf = false ∧ FetchesAs s [0xFF, 0xFC] (.ljmp 0xFFFC) ∧ Instr.ljmp 0xFFFC = .ljmp s.pc ∧
       s.pc.toNat + 1 + operandLength (.ljmp 0xFFFC) ≤ 0xFFFF) ∧
    (let s := at_ 0xFFFD [0x80, 0xFE] 65536
     s.err = .ok ∧ s.jf = false ∧ FetchesAs s [0xFE] (.sjmp 0xFE) ∧
       s.pc.toNat + 1 + operandLength (.sjmp 0xFE) ≤ 0xFFFF) :=
  ⟨⟨rfl, rfl, fetches_ljmp_self, rfl, by decide⟩, rfl, rfl, fetches_sjmp_self, by decide⟩
theorem witness_ResetRegisterValues :
    ∃ iram op s, resetCore [(0, 1)] ⟨1, 2, 3, 4⟩ { State.reset with a := 1, psw := 0xFF, err := .codeOutOfRange } =
      resetCore iram op s := ⟨_, _, _, rfl⟩
theorem witness_HostRegisterAccess :
    hostReadReg 7 { State.reset with psw := 0x18, iram := [(0x1F, 9)] } = .ok 9 ∧
    hostReadReg 8 State.reset = .error .hostRegisterOutOfRange := by decide

end Sys2Proof.Tests
end

section
/-! PROOFS. The statements about the state (10_state.md): the words and the flag word as numbers and fields, the registers
and the data pointer as IRAM bytes, and what no step writes and no step reads. -/

namespace Sys2Proof

/-! ### The halves of a word as numbers -/

theorem hi8_toNat (w : Word) : (hi8 w).toNat = w.toNat / 256 := by
  have hw := w.isLt
  simp only [hi8, BitVec.extractLsb'_toNat, Nat.shiftRight_eq_div_pow]
  omega

theorem lo8_toNat (w : Word) : (lo8 w).toNat = w.toNat % 256 := by
  simp only [lo8, BitVec.extractLsb'_toNat, Nat.shiftRight_zero, Nat.reducePow]

end Sys2Proof

namespace Sys2Proof.Machine

open Sys2Proof.Safety

/-! ### The flag word -/

/-- The bank field as a number (rule R14; bit order: decision D4). -/
theorem pswBank_toNat (psw : Byte) : (pswBank psw).toNat = psw.toNat / 8 % 4 := by
  simp only [pswBank, BitVec.extractLsb'_toNat, Nat.shiftRight_eq_div_pow, Nat.reducePow]

/-- The layout of rule R14: which field each bit of the flag word comes from. -/
theorem getLsbD_pswOfFields (cy ac f0 ov f1 p : Bool) (rs : BitVec 2) :
    let psw := pswOfFields cy ac f0 rs ov f1 p
    psw.getLsbD 0 = p ∧ psw.getLsbD 1 = f1 ∧ psw.getLsbD 2 = ov ∧ psw.getLsbD 3 = rs.getLsbD 0 ∧
    psw.getLsbD 4 = rs.getLsbD 1 ∧ psw.getLsbD 5 = f0 ∧ psw.getLsbD 6 = ac ∧ psw.getLsbD 7 = cy := by
  simp only [pswOfFields, BitVec.getLsbD_setWidth, BitVec.getLsbD_append, BitVec.getLsbD_ofBool]
  simp

/-- Putting the fields of a flag word together gives it back. -/
theorem pswOfFields_fields (psw : Byte) :
    pswOfFields (pswCY psw) (pswAC psw) (pswF0 psw) (pswBank psw) (pswOV psw) (pswF1 psw) (pswP psw) = psw := by
  obtain ⟨h0, h1, h2, h3, h4, h5, h6, h7⟩ := getLsbD_pswOfFields (pswCY psw) (pswAC psw) (pswF0 psw) (pswOV psw)
    (pswF1 psw) (pswP psw) (pswBank psw)
  apply BitVec.eq_of_getLsbD_eq
  intro i hi
  interval_cases i
  · exact h0
  · exact h1
  · exact h2
  · rw [h3]; simp [pswBank]
  · rw [h4]; simp [pswBank]
  · exact h5
  · exact h6
  · exact h7

/-- The bank field of a flag word put together from fields is the bank given. -/
theorem pswBank_pswOfFields (cy ac f0 ov f1 p : Bool) (rs : BitVec 2) :
    pswBank (pswOfFields cy ac f0 rs ov f1 p) = rs := by
  obtain ⟨-, -, -, h3, h4, -⟩ := getLsbD_pswOfFields cy ac f0 ov f1 p rs
  apply BitVec.eq_of_getLsbD_eq
  intro i hi
  interval_cases i
  · simpa [pswBank] using h3
  · simpa [pswBank] using h4

/-- Settles O40, by the layout of rule R14 bit by bit. -/
theorem pswIsItsFields : Obligations.PswIsItsFields := by
  refine ⟨fun psw => ⟨pswOfFields_fields psw, pswBank_toNat psw⟩, fun cy ac f0 ov f1 p rs => ?_⟩
  obtain ⟨h0, h1, h2, -, -, h5, h6, h7⟩ := getLsbD_pswOfFields cy ac f0 ov f1 p rs
  exact ⟨h7, h6, h5, pswBank_pswOfFields cy ac f0 ov f1 p rs, h2, h1, h0⟩

/-- Every field of the zero flag word is zero. -/
theorem pswFields_zero : pswBank 0x00 = 0 ∧ pswCY 0x00 = false ∧ pswAC 0x00 = false ∧ pswF0 0x00 = false ∧
    pswOV 0x00 = false ∧ pswF1 0x00 = false ∧ pswP 0x00 = false := by decide

/-- Power-on is a case of the reset operation. -/
theorem reset_eq_resetCore : State.reset = resetCore [] ⟨0, 0, 0, 0⟩ State.reset := rfl

/-- Settles O55: `State.reset` is a case of the reset operation, which writes these registers whatever it is given. -/
theorem resetRegisterValues : Obligations.ResetRegisterValues := by
  intro t ht
  have hcore : ∃ iram op s, t = resetCore iram op s := ht.elim (fun h => ⟨_, _, _, h.trans reset_eq_resetCore⟩) id
  obtain ⟨iram, op, s, rfl⟩ := hcore
  obtain ⟨hbank, hcy, hac, hf0, hov, hf1, hp⟩ := pswFields_zero
  exact ⟨rfl, rfl, rfl, rfl, rfl, hbank, hcy, hac, hf0, hov, hf1, hp, rfl⟩

/-! ### Registers and the data pointer are IRAM bytes -/

/-- The address of `Rn` as a number (rule R19). -/
theorem regAddr_toNat (s : State) (n : BitVec 3) : (regAddr s n).toNat = s.psw.toNat / 8 % 4 * 8 + n.toNat := by
  rw [regAddr, regAddrIn_toNat, pswBank_toNat]

/-- Settles O39: the register accessors are IRAM accesses at `regAddr`. -/
theorem registerIsBankedIramByte : Obligations.RegisterIsBankedIramByte := fun s n =>
  ⟨regAddr_toNat s n, rfl, fun v b => readIram_writeIram s (regAddr s n) v b⟩

/-- The data pointer as a number (rule R20). -/
theorem readDptr_toNat (s : State) :
    (readDptr s).toNat = (readIram s dphAddr).toNat * 256 + (readIram s dplAddr).toNat := word16_toNat _ _

theorem dphAddr_ne_dplAddr : dphAddr ≠ dplAddr := by decide

@[simp] theorem readIram_writeDptr_dphAddr (w : Word) (s : State) : readIram (writeDptr w s) dphAddr = hi8 w := by
  rw [readIram_writeDptr, if_neg dphAddr_ne_dplAddr, if_pos rfl]

@[simp] theorem readIram_writeDptr_dplAddr (w : Word) (s : State) : readIram (writeDptr w s) dplAddr = lo8 w := by
  rw [readIram_writeDptr, if_pos rfl]

theorem readIram_writeDptr_other (w : Word) (s : State) (b : Byte) (hh : b ≠ dphAddr) (hl : b ≠ dplAddr) :
    readIram (writeDptr w s) b = readIram s b := by
  rw [readIram_writeDptr, if_neg hl, if_neg hh]

/-- The two bytes of the data pointer after a write of it, as numbers. -/
theorem writeDptr_bytes_toNat (w : Word) (s : State) :
    (readIram (writeDptr w s) dphAddr).toNat = w.toNat / 256 ∧
    (readIram (writeDptr w s) dplAddr).toNat = w.toNat % 256 := by
  rw [readIram_writeDptr_dphAddr, readIram_writeDptr_dplAddr]
  exact ⟨hi8_toNat w, lo8_toNat w⟩

/-- A store to the data pointer's high byte replaces its high half. -/
theorem readDptr_writeIram_dphAddr (v : Byte) (s : State) :
    (readDptr (writeIram dphAddr v s)).toNat = v.toNat * 256 + (readDptr s).toNat % 256 := by
  have hlow := (readIram s dplAddr).isLt
  rw [readDptr_toNat, readDptr_toNat, readIram_writeIram_same,
    readIram_writeIram_other s dphAddr v dplAddr dphAddr_ne_dplAddr.symm]
  omega

/-- A store to the data pointer's low byte replaces its low half. -/
theorem readDptr_writeIram_dplAddr (v : Byte) (s : State) :
    (readDptr (writeIram dplAddr v s)).toNat = (readDptr s).toNat / 256 * 256 + v.toNat := by
  have hlow := (readIram s dplAddr).isLt
  rw [readDptr_toNat, readDptr_toNat, readIram_writeIram_same,
    readIram_writeIram_other s dplAddr v dphAddr dphAddr_ne_dplAddr]
  omega

/-- The data pointer does not see whether a store was hooked. -/
theorem readDptr_directStore (a v : Byte) (s : State) : readDptr (directStore a v s) = readDptr (writeIram a v s) := by
  simp only [readDptr, readIram_directStore, readIram_writeIram]

/-- Settles O37: a read is `word16` of the two bytes, and each store replaces one of them. -/
theorem dptrIsTwoIramBytes : Obligations.DptrIsTwoIramBytes :=
  ⟨readDptr_toNat, fun w s => ⟨readDptr_writeDptr s w, writeDptr_bytes_toNat w s⟩, fun v s =>
    ⟨readDptr_writeIram_dphAddr v s, readDptr_writeIram_dplAddr v s,
      readDptr_directStore dphAddr v s, readDptr_directStore dplAddr v s⟩⟩

/-- Settles O30: the handler is a write of the data pointer. -/
theorem movDptrImmResult : Obligations.MovDptrImmResult := by
  intro data s
  obtain ⟨hhigh, hlow⟩ := writeDptr_bytes_toNat data s
  exact ⟨writeDptr data s, rfl, hhigh, hlow, readIram_writeDptr_other data s, rfl⟩

/-! ### What no step writes -/

/-- Everything a step can do, outside `A`, `pc`, the two data memories, `ERR`, `JF`, `OP` and the trace: nothing. -/
theorem step_frame {s t : State} (h : step s = .next t) : ∃ a pc iram xdata err jf op trace,
    t = { s with a := a, pc := pc, iram := iram, xdata := xdata, err := err, jf := jf, op := op, trace := trace } := by
  obtain ⟨-, rfl⟩ | ⟨e, -, -, rfl⟩ | ⟨i, ops, u, -, -, hu, rfl⟩ := step_cases h
  · exact ⟨_, _, _, _, _, _, _, _, rfl⟩
  · exact ⟨_, _, _, _, _, _, _, _, raise_eq s e⟩
  · obtain ⟨a, pc, jf, iram, xdata, trace, hexec⟩ := exec_frame i (storeOperands ops s)
    obtain ⟨pc', jf', err', hfin⟩ := finishStep_frame u (operandLength i)
    obtain rfl := Host.Outcome.next.inj (hexec.symm.trans hu)
    exact ⟨_, _, _, _, _, _, _, _, hfin⟩

/-- Settles O48: none of these fields is among those a step can write. -/
theorem stepKeepsRegistersAndPlatform : Obligations.StepKeepsRegistersAndPlatform := by
  intro s t h
  obtain ⟨a, pc, iram, xdata, err, jf, op, trace, rfl⟩ := step_frame h
  exact ⟨rfl, rfl, rfl, rfl, rfl, rfl, rfl, rfl⟩

/-! ### What changes the accumulator -/

@[simp] theorem directStore_a (a v : Byte) (s : State) : (directStore a v s).a = s.a := by rw [directStore_eq]

@[simp] theorem writeXdata_a (d : Word) (v : Byte) (s : State) : (writeXdata d v s).a = s.a := by
  rw [writeXdata, apply_ite State.a, State.setXdata_a, ite_self]

@[simp] theorem finishStep_a (L : Nat) (s : State) : (finishStep L s).a = s.a := by
  obtain ⟨pc, jf, err, h⟩ := finishStep_frame s L
  rw [h]

/-- Only `CLR A`'s handler writes the accumulator. -/
theorem exec_a {i : Instr} {s t : State} (h : exec i s = .next t) : t.a = s.a ∨ (i = .clrA ∧ t.a = 0x00) := by
  cases i with
  | clrA => cases h; exact .inr ⟨rfl, rfl⟩
  | nop | ljmp | sjmp | movDptrImm | incDptr => cases h; exact .inl rfl
  | movDirectImm | movRnImm | clrBit | setbBit | movRiA => cases h; exact .inl (directStore_a ..)
  | movxDptrA => cases h; exact .inl (writeXdata_a ..)
  | djnz n rel =>
    cases h
    refine .inl ?_
    split
    · rfl
    · rfl

/-- `CLR A` has no operand byte. -/
theorem operands_eq_nil_of_fetchesAs_clrA {s : State} {ops : List Byte} (h : FetchesAs s ops .clrA) : ops = [] := by
  obtain ⟨_, -, hops, -⟩ := h
  exact List.eq_nil_of_length_eq_zero (fetchOperands_length s hops)

/-- Settles O49: of the stages of a step only a handler writes the accumulator, and of the handlers only `CLR A`'s. -/
theorem accumulatorChangesOnlyByClrA : Obligations.AccumulatorChangesOnlyByClrA := by
  intro s t h
  obtain ⟨-, rfl⟩ | ⟨e, -, -, rfl⟩ | ⟨i, ops, u, he, hfetch, hu, rfl⟩ := step_cases h
  · exact .inl rfl
  · exact .inl rfl
  · rw [finishStep_a]
    obtain ha | ⟨rfl, ha⟩ := exec_a hu
    · exact .inl ha
    · obtain rfl := operands_eq_nil_of_fetchesAs_clrA hfetch
      exact .inr ⟨ha, he, hfetch⟩

/-! ### What no step reads -/

/-! Each of the three ways a step can go (`step_cases`) from its condition. -/

theorem step_of_err {s : State} (h : s.err ≠ .ok) : step s = .next s := by simp only [step, frontEnd, if_neg h]

theorem step_of_frontEnd_error {s : State} {e : Err} (h : frontEnd s = .error e) : step s = .next (raise e s) := by
  simp only [step, h]

theorem step_of_exec {s u : State} {i : Instr} {ops : List Byte} (he : s.err = .ok) (hf : FetchesAs s ops i)
    (hu : exec i (storeOperands ops s) = .next u) : step s = .next (finishStep (operandLength i) u) := by
  simp only [step, frontEnd_of_fetchesAs hf he, hu]

/-- A choice of values for the parts of the state that no step reads. -/
structure Unread where
  b : Byte
  sp : Byte
  psw : Byte
  rhook : List Byte
  trace : List HookEvent

/-- `s` with other values in the parts that no step reads; of its trace only the events after the first `n` are kept,
behind the other trace. A step that starts with `n` events and its copy then agree on the events they append. -/
def State.withUnread (r : Unread) (n : Nat) (s : State) : State :=
  { s with b := r.b, sp := r.sp, psw := r.psw, rhook := r.rhook, trace := r.trace ++ s.trace.drop n }

section
variable {r : Unread} {n : Nat} {s t : State}

theorem withUnread_start : s.withUnread r s.trace.length =
    { s with b := r.b, sp := r.sp, psw := r.psw, rhook := r.rhook, trace := r.trace } := by
  rw [State.withUnread, List.drop_length, List.append_nil]

/-! Every operation of a step does the same under other unread values. -/

theorem frontEnd_withUnread : frontEnd (s.withUnread r n) = frontEnd s := rfl

theorem fetchesAs_withUnread {i : Instr} {ops : List Byte} :
    FetchesAs (s.withUnread r n) ops i ↔ FetchesAs s ops i := Iff.rfl

theorem storeOperands_withUnread (ops : List Byte) :
    storeOperands ops (s.withUnread r n) = (storeOperands ops s).withUnread r n := rfl

theorem finishStep_withUnread (L : Nat) :
    finishStep L (s.withUnread r n) = (finishStep L s).withUnread r n := by
  simp only [finishStep, apply_ite (State.withUnread r n)]
  rfl

theorem directStore_withUnread (a v : Byte) (hn : n ≤ s.trace.length) :
    directStore a v (s.withUnread r n) = (directStore a v s).withUnread r n := by
  simp only [directStore_eq, State.withUnread, List.drop_append_of_le_length hn, List.append_assoc]
  rfl

theorem writeXdata_withUnread (d : Word) (v : Byte) :
    writeXdata d v (s.withUnread r n) = (writeXdata d v s).withUnread r n := by
  simp only [writeXdata, apply_ite (State.withUnread r n)]
  rfl

theorem regAddr_withUnread (hb : pswBank r.psw = pswBank s.psw) (k : BitVec 3) :
    regAddr (s.withUnread r n) k = regAddr s k := congrArg (regAddrIn · k) hb

theorem readReg_withUnread (hb : pswBank r.psw = pswBank s.psw) (k : BitVec 3) :
    readReg (s.withUnread r n) k = readReg s k := congrArg (readIram s) (regAddr_withUnread hb k)

theorem writeReg_withUnread (hb : pswBank r.psw = pswBank s.psw) (k : BitVec 3) (v : Byte) :
    writeReg k v (s.withUnread r n) = (writeReg k v s).withUnread r n :=
  congrArg (writeIram · v (s.withUnread r n)) (regAddr_withUnread hb k)

/-- A handler does the same under other unread values with the same bank. -/
theorem exec_withUnread {i : Instr} (hn : n ≤ s.trace.length) (hb : pswBank r.psw = pswBank s.psw)
    (h : exec i s = .next t) : exec i (s.withUnread r n) = .next (t.withUnread r n) := by
  cases i with
  | nop | ljmp | sjmp | movDptrImm | incDptr | clrA => cases h; rfl
  | movDirectImm | clrBit | setbBit => cases h; exact congrArg _ (directStore_withUnread _ _ hn)
  | movRnImm k data =>
    cases h
    rw [exec, execMovRnImm, regAddr_withUnread hb, directStore_withUnread _ _ hn]
  | movRiA i =>
    cases h
    rw [exec, execMovRiA, indirectAddr, readReg_withUnread hb, directStore_withUnread _ _ hn]
    rfl
  | movxDptrA => cases h; exact congrArg _ (writeXdata_withUnread _ _)
  | djnz k rel =>
    cases h
    simp only [exec, execDjnz, readReg_withUnread hb, writeReg_withUnread hb, apply_ite (State.withUnread r n)]
    rfl

/-- A step does the same under other unread values with the same bank. -/
theorem step_withUnread (hn : n ≤ s.trace.length) (hb : pswBank r.psw = pswBank s.psw) (h : step s = .next t) :
    step (s.withUnread r n) = .next (t.withUnread r n) := by
  obtain ⟨he, rfl⟩ | ⟨e, -, hf, rfl⟩ | ⟨i, ops, u, he, hfetch, hu, rfl⟩ := step_cases h
  · exact step_of_err he
  · exact step_of_frontEnd_error (frontEnd_withUnread.trans hf)
  · rw [← finishStep_withUnread]
    have hu' : exec i (storeOperands ops (s.withUnread r n)) = .next (u.withUnread r n) := by
      rw [storeOperands_withUnread]
      exact exec_withUnread hn hb hu
    exact step_of_exec he (fetchesAs_withUnread.mpr hfetch) hu'

end

/-- Settles O53: a step commutes with `withUnread`, which at the step's start is the other state itself. -/
theorem unreadStateHasNoInfluence : Obligations.UnreadStateHasNoInfluence := by
  intro s t b sp psw rhook trace hb h
  have hstep := step_withUnread (r := ⟨b, sp, psw, rhook, trace⟩) (Nat.le_refl s.trace.length) hb h
  rwa [withUnread_start] at hstep

end Sys2Proof.Machine
end

section
/-! PROOFS. The statements about the internal RAM and its write hooks (20_memory.md section 7): what a hooked store does,
which address the two register-addressed moves store to, and what a step can show. -/

namespace Sys2Proof.Machine

open Sys2Proof.Safety

/-! ### The hooked store -/

/-- Settles O36: the shown events are `hookEvents`, and the byte is stored beside them. -/
theorem directStoreShowsThenStores : Obligations.DirectStoreShowsThenStores := fun a v s =>
  { stored := by rw [readIram_directStore, if_pos rfl]
    others := fun b hb => by rw [readIram_directStore, if_neg hb]
    trace := by rw [directStore_eq, hookEvents]
    frame := by rw [directStore_eq] }

/-- Settles O26: the handler is a hooked store to `regAddr`. -/
theorem movRnImmResult : Obligations.MovRnImmResult := fun n data s =>
  ⟨directStore (regAddr s n) data s, regAddr s n, rfl, regAddr_toNat s n,
    directStoreShowsThenStores (regAddr s n) data s⟩

/-- `@R0` names register 0 and `@R1` register 1 (30_encoding.md rule R77). -/
theorem ptrReg_toNat (i : BitVec 1) : (ptrReg i).toNat = i.toNat := BitVec.toNat_setWidth_of_le (by decide)

/-- Settles O27: the handler is a hooked store to what the pointer register holds before it. -/
theorem movRiAResult : Obligations.MovRiAResult := fun i s =>
  ⟨directStore (indirectAddr s i) s.a s, regAddr s (ptrReg i), rfl, by rw [regAddr_toNat, ptrReg_toNat],
    directStoreShowsThenStores (indirectAddr s i) s.a s⟩

/-! ### What a step shows -/

/-- A hooked store shows nothing, or one event at a hooked address, where it leaves the shown byte. -/
theorem directStore_trace_cases (a v : Byte) (s : State) : (directStore a v s).trace = s.trace ∨
    ∃ e, (directStore a v s).trace = s.trace ++ [e] ∧ e.addr ∈ s.whook ∧
      readIram (directStore a v s) e.addr = e.value := by
  have hstore := directStoreShowsThenStores a v s
  by_cases ha : a ∈ s.whook
  · exact .inr ⟨⟨a, v⟩, by rw [hstore.trace, if_pos ha], ha, hstore.stored⟩
  · exact .inl (by rw [hstore.trace, if_neg ha, List.append_nil])

@[simp] theorem writeXdata_trace (d : Word) (v : Byte) (s : State) : (writeXdata d v s).trace = s.trace := by
  rw [writeXdata, apply_ite State.trace, State.setXdata_trace, ite_self]

@[simp] theorem finishStep_trace (L : Nat) (s : State) : (finishStep L s).trace = s.trace := by
  obtain ⟨pc, jf, err, h⟩ := finishStep_frame s L
  rw [h]

@[simp] theorem readIram_finishStep (L : Nat) (s : State) (b : Byte) :
    readIram (finishStep L s) b = readIram s b := by
  obtain ⟨pc, jf, err, h⟩ := finishStep_frame s L
  rw [h, readIram, readIram]

/-- A handler shows nothing or is one hooked store: none of them shows an event in any other way (rule R51). -/
theorem exec_trace_or_directStore {i : Instr} {s t : State} (h : exec i s = .next t) :
    t.trace = s.trace ∨ ∃ a v, t = directStore a v s := by
  cases i with
  | movDirectImm | movRnImm | clrBit | setbBit | movRiA => cases h; exact .inr ⟨_, _, rfl⟩
  | nop | ljmp | sjmp | movDptrImm | incDptr | clrA => cases h; exact .inl rfl
  | movxDptrA => cases h; exact .inl (writeXdata_trace ..)
  | djnz n rel =>
    cases h
    refine .inl ?_
    split
    · rfl
    · rfl

/-- Settles O51: of the stages of a step only the handler shows events, and it is at most one hooked store. -/
theorem atMostOneEventPerStep : Obligations.AtMostOneEventPerStep := by
  intro s t h
  obtain ⟨-, rfl⟩ | ⟨e, -, -, rfl⟩ | ⟨i, ops, u, -, -, hu, rfl⟩ := step_cases h
  · exact .inl rfl
  · exact .inl rfl
  · simp only [finishStep_trace, readIram_finishStep]
    obtain htrace | ⟨a, v, rfl⟩ := exec_trace_or_directStore hu
    · exact .inl htrace
    · exact directStore_trace_cases a v (storeOperands ops s)

end Sys2Proof.Machine
end

section
/-! PROOFS. The statements about the encoding (30_encoding.md): decoder and encoder are inverse to each other, the
first byte decides the length, the declared costs, and the target of a relative jump as a number. -/

namespace Sys2Proof

/-! ### The decoder on a defined opcode -/

/-- The decoder on an opcode with a descriptor (rules R71 to R74). -/
theorem decode_of_desc {op : Byte} {d : Descriptor} (h : desc op = some d) (ops : List Byte) :
    decode (op :: ops) = if ops.length < d.operandLength then .error (.truncated op)
      else .ok (build d.kind op (ops.getD 0 0) (ops.getD 1 0), ops.drop d.operandLength) := by
  simp only [decode, h]

/-! ### From an instruction to its bytes and back -/

/-- An instruction's encoding is an opcode byte with a descriptor and as many operand bytes as the descriptor declares;
the instruction is built back from these bytes, and no byte behind them plays a part. -/
theorem exists_desc_of_encode (i : Instr) : ∃ op ops d, encode i = op :: ops ∧ desc op = some d ∧
    ops.length = d.operandLength ∧
    ∀ rest, build d.kind op ((ops ++ rest).getD 0 0) ((ops ++ rest).getD 1 0) = i := by
  cases i with
  | nop => exact ⟨_, _, _, rfl, desc_nop, rfl, fun _ => rfl⟩
  | ljmp addr => exact ⟨_, _, _, rfl, desc_ljmp, rfl, fun _ => congrArg Instr.ljmp (word16_hi8_lo8 addr)⟩
  | movDirectImm direct data => exact ⟨_, _, _, rfl, desc_movDirectImm, rfl, fun _ => rfl⟩
  | movRnImm n data =>
    exact ⟨_, _, _, rfl, desc_movRnImm n, rfl, fun _ => congrArg (Instr.movRnImm · data) (regField_movRnImm n)⟩
  | sjmp rel => exact ⟨_, _, _, rfl, desc_sjmp, rfl, fun _ => rfl⟩
  | movDptrImm data =>
    exact ⟨_, _, _, rfl, desc_movDptrImm, rfl, fun _ => congrArg Instr.movDptrImm (word16_hi8_lo8 data)⟩
  | incDptr => exact ⟨_, _, _, rfl, desc_incDptr, rfl, fun _ => rfl⟩
  | clrBit direct => exact ⟨_, _, _, rfl, desc_clrBit, rfl, fun _ => rfl⟩
  | setbBit direct => exact ⟨_, _, _, rfl, desc_setbBit, rfl, fun _ => rfl⟩
  | djnz n rel => exact ⟨_, _, _, rfl, desc_djnz n, rfl, fun _ => congrArg (Instr.djnz · rel) (regField_djnz n)⟩
  | clrA => exact ⟨_, _, _, rfl, desc_clrA, rfl, fun _ => rfl⟩
  | movxDptrA => exact ⟨_, _, _, rfl, desc_movxDptrA, rfl, fun _ => rfl⟩
  | movRiA i => exact ⟨_, _, _, rfl, desc_movRiA i, rfl, fun _ => congrArg Instr.movRiA (ptrField_movRiA i)⟩

/-- Settles O1: the descriptor of the encoded opcode takes exactly the encoded operand bytes off the front. -/
theorem decodeInvertsEncode : Obligations.DecodeInvertsEncode := by
  intro i rest
  obtain ⟨op, ops, d, henc, hd, hlen, hbuild⟩ := exists_desc_of_encode i
  have henough : ¬(ops ++ rest).length < d.operandLength := by rw [List.length_append]; omega
  rw [henc, List.cons_append, decode_of_desc hd, if_neg henough, hbuild, ← hlen, List.drop_left]

/-- Settles O4: the opcode byte is still there, with fewer operand bytes than its descriptor declares. -/
theorem properPrefixIsTruncated : Obligations.ProperPrefixIsTruncated := by
  intro i k hpos hshort
  obtain ⟨op, ops, d, henc, hd, hlen, -⟩ := exists_desc_of_encode i
  obtain ⟨k, rfl⟩ := Nat.exists_eq_add_one.mpr hpos
  rw [henc, List.length_cons] at hshort
  have hmissing : (ops.take k).length < d.operandLength := by rw [List.length_take]; omega
  rw [henc, List.take_succ_cons, decode_of_desc hd, if_pos hmissing, List.headD_cons]

/-! ### From bytes to an instruction and back -/

/-! The opcode is the row's pattern with the opcode's own register field added, if the row has one. -/

theorem opcode_of_mask_FF {op bits : Byte} (h : op &&& 0xFF = bits) : bits = op := by
  rw [← h]
  exact BitVec.and_allOnes

/-- A group of eight opcodes (rule R76). -/
theorem opcode_of_mask_F8 {op bits : Byte} (h : op &&& 0xF8 = bits) : bits + (regField op).setWidth 8 = op := by
  subst h
  revert op
  decide

/-- A group of two opcodes (rule R77). -/
theorem opcode_of_mask_FE {op bits : Byte} (h : op &&& 0xFE = bits) : bits + (ptrField op).setWidth 8 = op := by
  subst h
  revert op
  decide

/-! A 16-bit operand stands high byte first (20_memory.md rule R42). -/

theorem encode_ljmp_word16 (h l : Byte) : encode (.ljmp (word16 h l)) = [0x02, h, l] := by
  rw [encode, hi8_word16, lo8_word16]

theorem encode_movDptrImm_word16 (h l : Byte) : encode (.movDptrImm (word16 h l)) = [0x90, h, l] := by
  rw [encode, hi8_word16, lo8_word16]

/-- The encoding of what a descriptor's row builds: the opcode, and of the two operand bytes those it declares. -/
theorem encode_build {op : Byte} {d : Descriptor} (h : desc op = some d) (x y : Byte) :
    encode (build d.kind op x y) = op :: [x, y].take d.operandLength := by
  obtain ⟨hrow, hop⟩ := desc_some h
  simp only [descriptors, List.mem_cons, List.not_mem_nil, or_false] at hrow
  obtain rfl | rfl | rfl | rfl | rfl | rfl | rfl | rfl | rfl | rfl | rfl | rfl | rfl := hrow
  · exact congrArg (· :: []) (opcode_of_mask_FF hop)
  · exact (encode_ljmp_word16 x y).trans (congrArg (· :: [x, y]) (opcode_of_mask_FF hop))
  · exact congrArg (· :: [x, y]) (opcode_of_mask_FF hop)
  · exact congrArg (· :: [x]) (opcode_of_mask_F8 hop)
  · exact congrArg (· :: [x]) (opcode_of_mask_FF hop)
  · exact (encode_movDptrImm_word16 x y).trans (congrArg (· :: [x, y]) (opcode_of_mask_FF hop))
  · exact congrArg (· :: []) (opcode_of_mask_FF hop)
  · exact congrArg (· :: [x]) (opcode_of_mask_FF hop)
  · exact congrArg (· :: [x]) (opcode_of_mask_FF hop)
  · exact congrArg (· :: [x]) (opcode_of_mask_F8 hop)
  · exact congrArg (· :: []) (opcode_of_mask_FF hop)
  · exact congrArg (· :: []) (opcode_of_mask_FF hop)
  · exact congrArg (· :: []) (opcode_of_mask_FE hop)

/-- The operand bytes as the decoder reads them, padded to two, are those of the byte sequence where it has them. -/
theorem take_getD_pair {n : Nat} {ops : List Byte} (htwo : n ≤ 2) (hlen : n ≤ ops.length) :
    [ops.getD 0 0, ops.getD 1 0].take n = ops.take n := by
  match n, ops with
  | 0, _ => rfl
  | 1, x :: _ => rfl
  | 2, x :: y :: _ => rfl

/-- Settles O2: the decoded instruction encodes to the opcode and the operand bytes it was built from. -/
theorem encodeInvertsDecode : Obligations.EncodeInvertsDecode := by
  intro bs rest i h
  obtain ⟨op, ops, d, rfl, hd, hlen, rfl, rfl⟩ := decode_ok h
  have htwo : d.operandLength ≤ 2 := operandLength_build hd 0 0 ▸ operandLength_le_two _
  rw [encode_build hd, take_getD_pair htwo hlen, List.cons_append, List.take_append_drop]

/-! ### The declared cycle cost -/

theorem cycleCost_of_desc_none {op : Byte} (h : desc op = none) : cycleCost op = 0 := by simp only [cycleCost, h]

theorem cycleCost_of_desc_some {op : Byte} {d : Descriptor} (h : desc op = some d) :
    cycleCost op = Config.cyclesAbove op + 1 := by simp only [cycleCost, h]

/-- Settles O6, by whether the opcode has a descriptor. -/
theorem cycleCostZeroExactlyIfUndefined : Obligations.CycleCostZeroExactlyIfUndefined := by
  intro op
  cases hd : desc op with
  | none => exact iff_of_true (cycleCost_of_desc_none hd) rfl
  | some d =>
    rw [cycleCost_of_desc_some hd]
    exact iff_of_false (Nat.succ_ne_zero _) (Option.some_ne_none d)

end Sys2Proof

namespace Sys2Proof.Machine

/-! ### The relative jump -/

/-- The target of a relative jump as a number, the operand byte read as two's complement (rules R78, R114; the wrap is
decision D12). -/
theorem relTarget_toNat (pc : Word) (rel : Byte) :
    ((relTarget pc rel).toNat : Int) = ((pc.toNat : Int) + 2 + rel.toInt) % 65536 := by
  have hsext : ((sext16 rel).toNat : Int) = rel.toInt % 65536 := by
    rw [sext16, BitVec.signExtend, BitVec.toNat_ofInt]
    omega
  have htwo : (2 : Word).toNat = 2 := rfl
  simp only [relTarget, BitVec.toNat_add, htwo, Nat.reducePow]
  omega

/-- Settles O23: the handler is a jump to the relative target. -/
theorem sjmpResult : Obligations.SjmpResult := fun rel s =>
  ⟨jump (relTarget s.pc rel) s, rfl, rfl, relTarget_toNat s.pc rel⟩

end Sys2Proof.Machine
end

section
/-! PROOFS. The statements about the step (40_step_cycle.md): the terminal guard, the operand fetch, which handlers write
`pc` and `JF`, what stage 7 makes of these two, and when a step completes. -/

namespace Sys2Proof.Machine

open Sys2Proof.Safety

/-! ### What a handler does to `pc`, `JF` and `ERR` -/

@[simp] theorem directStore_pc (a v : Byte) (s : State) : (directStore a v s).pc = s.pc := by rw [directStore_eq]

@[simp] theorem directStore_jf (a v : Byte) (s : State) : (directStore a v s).jf = s.jf := by rw [directStore_eq]

@[simp] theorem writeXdata_pc (d : Word) (v : Byte) (s : State) : (writeXdata d v s).pc = s.pc := by
  rw [writeXdata, apply_ite State.pc, State.setXdata_pc, ite_self]

@[simp] theorem writeXdata_jf (d : Word) (v : Byte) (s : State) : (writeXdata d v s).jf = s.jf := by
  rw [writeXdata, apply_ite State.jf, State.setXdata_jf, ite_self]

/-- `DJNZ` falls through when it counts down to zero (rule R113). -/
theorem djnz_of_zero {n : BitVec 3} {s : State} (h : readReg s n - 1#8 = 0#8) (rel : Byte) :
    exec (.djnz n rel) s = .next (writeReg n 0#8 s) ∧ jumpTarget (.djnz n rel) s = none := by
  simp only [exec, execDjnz, jumpTarget, h, if_true, and_self]

/-- `DJNZ` jumps when it counts down to anything else (rule R113). -/
theorem djnz_of_ne_zero {n : BitVec 3} {s : State} (h : readReg s n - 1#8 ≠ 0#8) (rel : Byte) :
    exec (.djnz n rel) s = .next (jump (relTarget s.pc rel) (writeReg n (readReg s n - 1#8) s)) ∧
      jumpTarget (.djnz n rel) s = some (relTarget s.pc rel) := by
  simp only [exec, execDjnz, jumpTarget, if_neg h, and_self]

/-- Settles O17: `LJMP` and `SJMP` jump, `DJNZ` does unless it counts down to zero, and each other handler is built of
operations that write neither `pc` nor `JF`. -/
theorem onlyJumpsWritePcAndFlag : Obligations.OnlyJumpsWritePcAndFlag := by
  intro i s
  cases i with
  | ljmp | sjmp => exact ⟨_, rfl, nofun, fun t h => ⟨Option.some.inj h, rfl⟩⟩
  | nop | movDptrImm | incDptr | clrA => exact ⟨_, rfl, fun _ => ⟨rfl, rfl⟩, nofun⟩
  | movDirectImm | movRnImm | clrBit | setbBit | movRiA =>
    exact ⟨_, rfl, fun _ => ⟨directStore_pc .., directStore_jf ..⟩, nofun⟩
  | movxDptrA => exact ⟨_, rfl, fun _ => ⟨writeXdata_pc .., writeXdata_jf ..⟩, nofun⟩
  | djnz n rel =>
    by_cases hz : readReg s n - 1#8 = 0#8
    · obtain ⟨hexec, htarget⟩ := djnz_of_zero hz rel
      rw [htarget]
      exact ⟨_, hexec, fun _ => ⟨rfl, rfl⟩, nofun⟩
    · obtain ⟨hexec, htarget⟩ := djnz_of_ne_zero hz rel
      rw [htarget]
      exact ⟨_, hexec, nofun, fun t h => ⟨Option.some.inj h, rfl⟩⟩

/-- Every handler answers a next state. -/
theorem exec_answers_next (i : Instr) (s : State) : ∃ u, exec i s = .next u := by
  obtain ⟨u, hu, -⟩ := onlyJumpsWritePcAndFlag i s
  exact ⟨u, hu⟩

/-- No handler raises an error. -/
theorem exec_err {i : Instr} {s u : State} (h : exec i s = .next u) : u.err = s.err := by
  obtain ⟨a, pc, jf, iram, xdata, trace, hexec⟩ := exec_frame i s
  obtain rfl := Host.Outcome.next.inj (hexec.symm.trans h)
  rfl

/-- Storing the operand bytes in `OP` changes no jump. -/
theorem jumpTarget_storeOperands (i : Instr) (ops : List Byte) (s : State) :
    jumpTarget i (storeOperands ops s) = jumpTarget i s := rfl

/-! ### The stages before the handler -/

/-- Settles O7: stage 1 ends the step. -/
theorem terminalStepChangesNothing : Obligations.TerminalStepChangesNothing := fun _ => step_of_err

/-- The operand fetch fails exactly when an operand byte lies past the bound (rule R94; decisions D8, D10). -/
theorem fetchOperands_eq_none_iff (s : State) (L : Nat) :
    fetchOperands s L = none ↔ L ≠ 0 ∧ s.codeLen < (s.pc.toNat + 1) % 65536 + L := by
  by_cases hL : L = 0
  · simp [fetchOperands, hL]
  · simp [fetchOperands, codeFetch, hL]

/-- Stage 4 raises when the operand fetch of a defined opcode fails. -/
theorem frontEnd_of_fetchOperands_none {s : State} {d : Descriptor} (he : s.err = .ok) (hpc : s.pc.toNat < s.codeLen)
    (hd : desc (s.code.read s.pc.toNat) = some d) (hops : fetchOperands s d.operandLength = none) :
    frontEnd s = .error .codeOutOfRange := by
  have hop : codeFetch s s.pc 1 = some [s.code.read s.pc.toNat] := by rw [codeFetch_one, if_pos hpc]
  simp only [frontEnd, he, if_true, hop, List.headD_cons, hd, hops]

/-- Settles O11: the operand fetch fails, so stage 4 raises and nothing else happens. -/
theorem missingOperandsStop : Obligations.MissingOperandsStop := by
  intro s d he hpc hd hL hshort
  have hops : fetchOperands s d.operandLength = none := (fetchOperands_eq_none_iff s _).mpr ⟨hL, hshort⟩
  rw [step_of_frontEnd_error (frontEnd_of_fetchOperands_none he hpc hd hops), raise_eq]

/-! ### The whole step -/

/-- Settles O8: the handler answers a next state, and with it `step_of_exec` says what the step is. -/
theorem stepRunsTheDecodedInstruction : Obligations.StepRunsTheDecodedInstruction := by
  intro s i ops he hfetch
  obtain ⟨u, hu⟩ := exec_answers_next i (storeOperands ops s)
  exact ⟨u, hu, step_of_exec he hfetch hu⟩

/-- Settles O9, by what stages 1 to 4 find. -/
theorem stepAlwaysAnswersNext : Obligations.StepAlwaysAnswersNext := by
  intro s
  by_cases he : s.err = .ok
  · cases hf : frontEnd s with
    | terminal => exact ⟨s, by simp only [step, hf]⟩
    | error e => exact ⟨raise e s, step_of_frontEnd_error hf⟩
    | ready i L ops =>
      obtain ⟨-, -, hfetch⟩ := frontEnd_ready_decodes hf
      obtain ⟨u, -, hstep⟩ := stepRunsTheDecodedInstruction s i ops he hfetch
      exact ⟨_, hstep⟩
  · exact ⟨s, step_of_err he⟩

/-! ### The stages after the handler -/

/-- Below the overflow threshold the advance of `pc` does not wrap. -/
theorem toNat_advance {pc : Word} {L : Nat} (h : pc.toNat + 1 + L ≤ 0xFFFF) :
    (pc + BitVec.ofNat 16 (1 + L)).toNat = pc.toNat + 1 + L := by
  simp only [BitVec.toNat_add, BitVec.toNat_ofNat]
  omega

/-- Settles O16, by the two ways in which stage 7 can end a step. -/
theorem pcUpdateAfterHandler : Obligations.PcUpdateAfterHandler := by
  intro s u i ops he hfetch hu hbound
  refine ⟨_, step_of_exec he hfetch hu, ?_⟩
  obtain ⟨hover, -⟩ | ⟨-, hjf, hfin⟩ | ⟨-, hjf, hfin⟩ := finishStep_cases u (operandLength i)
  · omega
  · rw [hfin]
    exact ⟨rfl, by simp [hjf], fun _ => rfl⟩
  · rw [hfin]
    exact ⟨hjf, fun _ => ⟨rfl, toNat_advance hbound⟩, by simp [hjf]⟩

/-- Settles O18: the band bounds the `pc` that the handler leaves, jump or not, so stage 7 is reached. -/
theorem settledStepCompletes : Obligations.SettledStepCompletes := by
  intro s i ops he hjf hfetch hsettled
  obtain ⟨hpcBound, htargetBound⟩ := hsettled
  obtain ⟨u, hu, hstay, hjump⟩ := onlyJumpsWritePcAndFlag i (storeOperands ops s)
  rw [jumpTarget_storeOperands] at hstay hjump
  have hue : u.err = .ok := (exec_err hu).trans he
  cases htarget : jumpTarget i s with
  | none =>
    obtain ⟨hpc, hj⟩ : u.pc = s.pc ∧ u.jf = s.jf := hstay htarget
    obtain ⟨t, hstep, htj, hadvance, -⟩ := pcUpdateAfterHandler s u i ops he hfetch hu (hpc ▸ hpcBound)
    obtain ⟨ht, htpc⟩ := hadvance (hj.trans hjf)
    rw [hpc] at htpc
    exact ⟨t, hstep, ht ▸ hue, htj, nofun, fun _ => htpc⟩
  | some a =>
    obtain ⟨rfl, hj⟩ := hjump a htarget
    obtain ⟨t, hstep, htj, -, hkeep⟩ := pcUpdateAfterHandler s u i ops he hfetch hu (htargetBound _ htarget)
    obtain rfl := hkeep hj
    exact ⟨_, hstep, hue, htj, fun _ h => Option.some.inj h, nofun⟩

end Sys2Proof.Machine
end

section
/-! PROOFS. The statements about no-operation and the long jump (41_nop_and_jumps.md): what the handler makes of the
state, and what stage 7 (`pcUpdateAfterHandler`) makes of that. -/

namespace Sys2Proof.Machine

/-- Without operand bytes stage 4 leaves `OP` as it is. -/
@[simp] theorem storeOperands_nil (s : State) : storeOperands [] s = s := rfl

/-- Settles O21: the handler answers its state, so `JF` is 0 after it and stage 7 advances `pc`, without a wrap. -/
theorem nopResult : Obligations.NopResult := by
  refine ⟨fun s => rfl, ?_⟩
  intro s he hjf hfetch hpc
  have hexec : exec .nop (storeOperands [] s) = .next s := congrArg Host.Outcome.next (storeOperands_nil s)
  have hbound : s.pc.toNat + 1 + operandLength .nop ≤ 0xFFFF := Nat.succ_le_succ hpc
  obtain ⟨t, hstep, -, hadvance, -⟩ := pcUpdateAfterHandler s s .nop [] he hfetch hexec hbound
  obtain ⟨ht, htpc⟩ := hadvance hjf
  have hnext : t.pc = s.pc + 1 := BitVec.eq_of_toNat_eq (htpc.trans (toNat_advance hbound).symm)
  rw [hstep, ht, hnext]

/-- Settles O22: the handler is a jump to the operand, so stage 7, which the bound on the target reaches, only clears
`JF`. -/
theorem ljmpResult : Obligations.LjmpResult := by
  refine ⟨fun addr s => congrArg Host.Outcome.next (jump_eq s addr), ?_⟩
  intro hi lo s he hfetch htarget
  have hexec : exec (.ljmp (word16 hi lo)) (storeOperands [hi, lo] s) =
      .next (jump (word16 hi lo) (storeOperands [hi, lo] s)) := rfl
  have hbound : (word16 hi lo).toNat + 1 + operandLength (.ljmp (word16 hi lo)) ≤ 0xFFFF :=
    Nat.add_le_add_right htarget 3
  obtain ⟨t, hstep, -, -, hkeep⟩ := pcUpdateAfterHandler s _ _ _ he hfetch hexec hbound
  rw [hstep, hkeep rfl]
  rfl

end Sys2Proof.Machine
end

section
/-! PROOFS. The statements about the data moves (42_moves.md) to a direct address and to the external RAM: what the
handlers store, and which step writes the external RAM. -/

namespace Sys2Proof.Machine

open Sys2Proof.Safety

/-- Settles O25: the handler is a hooked store to the operand. -/
theorem movDirectImmResult : Obligations.MovDirectImmResult := fun direct data s =>
  ⟨directStore direct data s, rfl, directStoreShowsThenStores direct data s⟩

/-- Settles O33: the handler is an external store of `A` at the data pointer, in range or not. -/
theorem movxResult : Obligations.MovxResult := by
  intro s d hd
  obtain rfl : d = (readDptr s).toNat := hd.trans (readDptr_toNat s).symm
  constructor
  · intro hin
    exact ⟨_, congrArg Host.Outcome.next (writeXdata_in_range s _ _ hin), Memory.read_write_same _ _ _,
      fun _ he => Memory.read_write_other _ _ _ _ he, rfl⟩
  · intro hout
    exact congrArg Host.Outcome.next (writeXdata_out_of_range s _ _ hout.not_gt)

/-! ### What changes the external RAM -/

@[simp] theorem directStore_xdata (a v : Byte) (s : State) : (directStore a v s).xdata = s.xdata := by
  rw [directStore_eq]

@[simp] theorem finishStep_xdata (L : Nat) (s : State) : (finishStep L s).xdata = s.xdata := by
  obtain ⟨pc, jf, err, h⟩ := finishStep_frame s L
  rw [h]

/-- Only `MOVX @DPTR,A`'s handler writes XDATA, and only with `DPTR < XLEN`. -/
theorem exec_xdata {i : Instr} {s t : State} (h : exec i s = .next t) : t.xdata = s.xdata ∨
    (i = .movxDptrA ∧ (readDptr s).toNat < s.xlen) := by
  cases i with
  | nop | ljmp | sjmp | movDptrImm | incDptr | clrA => cases h; exact .inl rfl
  | movDirectImm | movRnImm | clrBit | setbBit | movRiA => cases h; exact .inl (directStore_xdata ..)
  | movxDptrA =>
    cases h
    by_cases hin : (readDptr s).toNat < s.xlen
    · exact .inr ⟨rfl, hin⟩
    · exact .inl (congrArg State.xdata (writeXdata_out_of_range s _ _ hin))
  | djnz n rel =>
    cases h
    refine .inl ?_
    split
    · rfl
    · rfl

/-- An instruction with operand length 0 is fetched without operand bytes. -/
theorem operands_eq_nil_of_fetchesAs {s : State} {ops : List Byte} {i : Instr} (hL : operandLength i = 0)
    (h : FetchesAs s ops i) : ops = [] := by
  obtain ⟨_, -, hops, -⟩ := h
  exact List.eq_nil_of_length_eq_zero ((fetchOperands_length s hops).trans hL)

/-- Settles O50: of the stages of a step only a handler writes XDATA, and of the handlers only `MOVX @DPTR,A`'s, which
runs on the state before the step, since it has no operand byte. -/
theorem xdataChangesOnlyByMovx : Obligations.XdataChangesOnlyByMovx := by
  intro s t h
  obtain ⟨-, rfl⟩ | ⟨e, -, -, rfl⟩ | ⟨i, ops, u, he, hfetch, hu, rfl⟩ := step_cases h
  · exact .inl rfl
  · exact .inl rfl
  · rw [finishStep_xdata]
    obtain hsame | ⟨rfl, hin⟩ := exec_xdata hu
    · exact .inl hsame
    · obtain rfl := operands_eq_nil_of_fetchesAs rfl hfetch
      rw [storeOperands_nil] at hu hin
      obtain ⟨u', hu', hstored, hothers, -⟩ := (movxResult s _ (readDptr_toNat s)).1 hin
      obtain rfl := Host.Outcome.next.inj (hu'.symm.trans hu)
      exact .inr ⟨he, hfetch, hin, hstored, hothers⟩

end Sys2Proof.Machine
end


section
/-! PROOFS. The statements about the clear and bit-named operations (43_alu_and_bit.md): the bit-named ones store a whole
byte and show it to a hook (rules R151, R152), `CLR A` writes only the accumulator (rule R153). -/

namespace Sys2Proof.Machine

/-- Settles O28: the handler is a hooked store of 0x00 to the operand. -/
theorem clrBitResult : Obligations.ClrBitResult := fun direct s =>
  ⟨directStore direct 0x00 s, rfl, directStoreShowsThenStores direct 0x00 s⟩

/-- Settles O29: the handler is a hooked store of 0x01 to the operand. -/
theorem setbBitResult : Obligations.SetbBitResult := fun direct s =>
  ⟨directStore direct 0x01 s, rfl, directStoreShowsThenStores direct 0x01 s⟩

/-- Settles O32: the handler is the one update `State.setA`, which is that record update by definition. -/
theorem clrAResult : Obligations.ClrAResult := fun _ => rfl

end Sys2Proof.Machine
end

section
/-! PROOFS. The statements about the error register (60_exceptions.md): where a step raises an error, what it leaves
behind then, and that a stopped core stays as it is. -/

namespace Sys2Proof.Machine

open Sys2Proof.Safety

/-! ### Where an error is raised -/

/-- Stage 3 raises exactly for a fetched opcode without a descriptor (40_step_cycle.md rules R92, R93). -/
theorem frontEnd_eq_error_unknownInstruction_iff {s : State} (he : s.err = .ok) :
    frontEnd s = .error .unknownInstruction ↔ s.pc.toNat < s.codeLen ∧ desc (s.code.read s.pc.toNat) = none := by
  by_cases hpc : s.pc.toNat < s.codeLen
  · have hop : codeFetch s s.pc 1 = some [s.code.read s.pc.toNat] := by rw [codeFetch_one, if_pos hpc]
    cases hd : desc (s.code.read s.pc.toNat) with
    | none => simp [frontEnd, he, hop, hd, hpc]
    | some d => cases hops : fetchOperands s d.operandLength <;> simp [frontEnd, he, hop, hd, hops]
  · simp [frontEnd, he, codeFetch_one, hpc]

/-- The stages before the handler raise no other code than these two (60_exceptions.md rules R171, R172). -/
theorem frontEnd_error_code {s : State} {e : Err} (h : frontEnd s = .error e) :
    e = .codeOutOfRange ∨ e = .unknownInstruction := by
  obtain ⟨-, hf⟩ | ⟨-, -, hf⟩ | ⟨_, -, -, -, hf⟩ | ⟨_, _, -, -, -, -, hf⟩ | ⟨_, _, _, -, -, -, -, hf⟩ :=
    frontEnd_cases s <;> cases hf.symm.trans h
  · exact .inl rfl
  · exact .inr rfl
  · exact .inl rfl

/-- The stages after the handler leave `ERR` alone or raise `CodeOutOfRange`. -/
theorem finishStep_err_or_raise (L : Nat) (u : State) :
    (finishStep L u).err = u.err ∨ finishStep L u = raise .codeOutOfRange u := by
  obtain ⟨-, h⟩ | ⟨-, -, h⟩ | ⟨-, -, h⟩ := finishStep_cases u L
  · exact .inr h
  · exact .inl (by rw [h, State.setJf_err])
  · exact .inl (by rw [h, State.setPc_err])

/-- A step that changes `ERR` raises an error: before the handler, on the state before the step, or after it, on the
state the handler left (60_exceptions.md rule R176). -/
theorem step_raises {s t : State} (h : step s = .next t) (hne : t.err ≠ s.err) :
    (∃ e, frontEnd s = .error e ∧ t = raise e s) ∨
    ∃ i ops u, FetchesAs s ops i ∧ exec i (storeOperands ops s) = .next u ∧ t = raise .codeOutOfRange u := by
  obtain ⟨-, rfl⟩ | ⟨e, -, hf, ht⟩ | ⟨i, ops, u, -, hfetch, hu, rfl⟩ := step_cases h
  · exact absurd rfl hne
  · exact .inl ⟨e, hf, ht⟩
  · obtain hsame | hraise := finishStep_err_or_raise (operandLength i) u
    · exact absurd (hsame.trans (exec_err hu)) hne
    · exact .inr ⟨i, ops, u, hfetch, hu, hraise⟩

/-- A step that changes `ERR` to another code than `CodeOutOfRange` raises it before the handler. -/
theorem frontEnd_of_err_ne_codeOutOfRange {s t : State} (h : step s = .next t) (hne : t.err ≠ s.err)
    (hc : t.err ≠ .codeOutOfRange) : frontEnd s = .error t.err ∧ t = raise t.err s := by
  obtain ⟨e, hf, rfl⟩ | ⟨_, _, _, -, -, rfl⟩ := step_raises h hne
  · exact ⟨hf, rfl⟩
  · exact absurd rfl hc

/-- Settles O12: the code is raised by the front end, on the state before the step, and there by stage 3 alone. -/
theorem unknownInstructionExactlyAtUndefinedOpcode : Obligations.UnknownInstructionExactlyAtUndefinedOpcode := by
  intro s t he h
  have hraised (hu : t.err = .unknownInstruction) :
      frontEnd s = .error .unknownInstruction ∧ t = raise .unknownInstruction s :=
    hu ▸ frontEnd_of_err_ne_codeOutOfRange h (by simp [hu, he]) (by simp [hu])
  rw [← frontEnd_eq_error_unknownInstruction_iff he]
  refine ⟨⟨fun hu => (hraised hu).1, fun hf => ?_⟩, fun hu => (hraised hu).2⟩
  obtain rfl := Host.Outcome.next.inj ((step_of_frontEnd_error hf).symm.trans h)
  rfl

/-- Settles O14: the step raises an error, and `raise` writes `ERR` alone. -/
theorem errorEntryKeepsEverythingElse : Obligations.ErrorEntryKeepsEverythingElse := by
  intro s t he h hne
  obtain ⟨e, -, rfl⟩ | hafter := step_raises h (he ▸ hne)
  · exact .inl (raise_eq s e)
  · exact .inr hafter

/-- Settles O52: the stages that raise an error raise other codes, and the dropped store leaves the state as it is. -/
theorem xdataOutOfRangeNeverRaised : Obligations.XdataOutOfRangeNeverRaised := by
  constructor
  · intro s t h ht
    by_contra hs
    obtain ⟨hf, -⟩ := frontEnd_of_err_ne_codeOutOfRange h (fun e => hs (e ▸ ht)) (by simp [ht])
    simpa [ht] using frontEnd_error_code hf
  · intro s hout
    exact (movxResult s _ (readDptr_toNat s)).2 hout

/-! ### The stopped core -/

/-- A run takes its first step and goes on from there. -/
theorem core_run_succ {s t : State} (h : step s = .next t) (k : Nat) :
    Host.Core.run core (k + 1) s = Host.Core.run core k t := by
  have hstep : core.step s = .next t := h
  simp only [Host.Core.run, hstep]

/-- Settles O47, by induction on the number of steps: each of them is stage 1's no-op. -/
theorem stoppedCoreNeverChanges : Obligations.StoppedCoreNeverChanges := by
  intro k s hs
  induction k with
  | zero => rfl
  | succ k ih => rw [core_run_succ (step_of_err hs), ih]

/-- Of the codes the hardware can hold, only `OK` has no fault class (60_exceptions.md rule R190). -/
theorem faultOf_eq_none_iff {s : State} (h : errReachable s.err) : faultOf s = none ↔ s.err = .ok := by
  obtain he | he | he := h <;> simp [faultOf, he]

/-- Settles O46: the invariant shuts out the codes that no step raises, and a stopped core does not step. -/
theorem faultClassExactlyWhenStopped : Obligations.FaultClassExactlyWhenStopped := by
  intro s hinv
  have hclass := faultOf_eq_none_iff hinv.err
  exact ⟨hclass, fun hfault => step_of_err (mt hclass.mpr hfault)⟩

end Sys2Proof.Machine
end

section
/-! PROOFS. The statements about the invariant of a legal state (10_state.md) and about reset and the host
(70_reset_and_hazards.md): every step, reset, power-on and the host's accessors keep the invariant, and what reset and the
accessors do. -/

namespace Sys2Proof.Machine

open Sys2Proof.Safety

variable {s t u : State}

/-! ### The operations that keep the invariant -/

/-- An error entry keeps the invariant if the hardware can raise the code and `JF` may stand beside it. -/
theorem raise_inv {e : Err} (h : Inv s) (he : errReachable e) (hjf : s.jf = true → e = .codeOutOfRange) :
    Inv (raise e s) :=
  { h with err := he, jf := hjf }

/-- The reset operation keeps the invariant whatever legal contents it leaves in IRAM. -/
theorem resetCore_inv {iram : Memory} (h : Inv s) (hiram : iram.wf ∧ iram.within Config.iramSize)
    (op : OperandBuffer) : Inv (resetCore iram op s) :=
  { h with iram := hiram, err := .inl rfl, jf := nofun }

/-- A plain store keeps the invariant. -/
theorem writeIram_inv (h : Inv s) (a v : Byte) : Inv (writeIram a v s) :=
  { h with iram := ⟨Memory.write_wf _ _ v h.iram.1, Memory.write_within _ _ v h.iram.2 a.isLt⟩ }

/-- Storing the operand bytes in `OP` keeps the invariant. -/
theorem storeOperands_inv (h : Inv s) (ops : List Byte) : Inv (storeOperands ops s) := { h with }

/-- A write of the data pointer keeps the invariant: it is two plain stores. -/
theorem writeDptr_inv (h : Inv s) (w : Word) : Inv (writeDptr w s) := writeIram_inv (writeIram_inv h _ _) _ _

/-! ### The handler and the end of a step -/

/-- Every event that a handler leaves in the trace was there before it or is at a hooked address (rule R50). -/
theorem exec_event_hooked {i : Instr} (hu : exec i s = .next u) {e : HookEvent} (he : e ∈ u.trace) :
    e ∈ s.trace ∨ e.addr ∈ s.whook := by
  obtain hsame | ⟨a, v, rfl⟩ := exec_trace_or_directStore hu
  · exact .inl (hsame ▸ he)
  · obtain hsame | ⟨e', hpush, hhooked, -⟩ := directStore_trace_cases a v s
    · exact .inl (hsame ▸ he)
    · rw [hpush, List.mem_append, List.mem_singleton] at he
      obtain he | rfl := he
      · exact .inl he
      · exact .inr hhooked

/-- Between a handler and the end of its step only `JF` may break the invariant: the handler keeps the rest of it. -/
theorem exec_inv {i : Instr} (h : Inv s) (hu : exec i s = .next u) : Inv (u.setJf false) := by
  obtain ⟨hiram, hxdata⟩ := exec_keeps_memory hu h.iram h.xdata
  have htrace (e : HookEvent) (he : e ∈ u.trace) : e.addr ∈ s.whook :=
    (exec_event_hooked hu he).elim (h.trace e) id
  obtain ⟨a, pc, jf, iram, xdata, trace, hexec⟩ := exec_frame i s
  obtain rfl := Host.Outcome.next.inj (hexec.symm.trans hu)
  exact { h with iram := hiram, xdata := hxdata, trace := htrace, jf := nofun }

/-- The end of a step restores the invariant: it clears `JF`, finds it clear, or raises `CodeOutOfRange` beside it. -/
theorem finishStep_inv (L : Nat) (h : Inv (u.setJf false)) : Inv (finishStep L u) := by
  obtain ⟨-, hfin⟩ | ⟨-, -, hfin⟩ | ⟨-, hjf, hfin⟩ := finishStep_cases u L <;> rw [hfin]
  · exact { h with err := .inr (.inl rfl), jf := fun _ => rfl }
  · exact h
  · exact { h with jf := by simp [hjf] }

/-- While `ERR` is `OK`, a state that meets the invariant has `JF` clear. -/
theorem jf_ne_true_of_inv (h : Inv s) (he : s.err = .ok) : s.jf ≠ true := fun hjf => by
  simpa [he] using h.jf hjf

/-- Settles O43, by the ways a step can go: the guard, an error entry before the handler, or the handler and the end of
the step, between which only `JF` may break the invariant. -/
theorem stepKeepsInvariant : Obligations.StepKeepsInvariant := by
  intro s t h hstep
  obtain ⟨-, rfl⟩ | ⟨e, he, hf, rfl⟩ | ⟨i, ops, u, -, -, hu, rfl⟩ := step_cases hstep
  · exact h
  · exact raise_inv h (.inr (frontEnd_error_code hf)) fun hjf => absurd hjf (jf_ne_true_of_inv h he)
  · exact finishStep_inv _ (exec_inv (storeOperands_inv h ops) hu)

/-! ### Reset, power-on and the host -/

/-- Settles O45: each clause of the invariant is a hypothesis or a value that power-on fixes. -/
theorem configuredPowerOnSatisfiesInvariant : Obligations.ConfiguredPowerOnSatisfiesInvariant := by
  intro code iram xdata codeLen xlen op whook rhook hcode hcodeIn hlen hiram hiramIn hxdata hxdataIn hwhook hrhook
  exact
    { iram := ⟨hiram, hiramIn⟩
      xdata := ⟨hxdata, hxdataIn⟩
      code := ⟨hcode, hcodeIn⟩
      codeLen := hlen
      hooks := ⟨hwhook, hrhook⟩
      trace := nofun
      err := .inl rfl
      jf := nofun }

/-- Settles O42: the reset state is a power-on with nothing loaded and nothing configured. -/
theorem resetSatisfiesInvariant : Obligations.ResetSatisfiesInvariant :=
  configuredPowerOnSatisfiesInvariant [] [] [] 0 0 ⟨0, 0, 0, 0⟩ [] [] Memory.nil_wf nofun (Nat.zero_le _)
    Memory.nil_wf nofun Memory.nil_wf nofun .nil .nil

/-- The host's write of a register, where it is not refused. -/
theorem hostWriteReg_of_le {n : Nat} (hn : n ≤ 7) (v : Byte) (s : State) :
    hostWriteReg n v s = .next (writeReg (BitVec.ofNat 3 n) v s) := if_pos hn

/-- The host's write of a register is refused above 7 (rule R206). -/
theorem hostWriteReg_of_gt {n : Nat} (hn : 7 < n) (v : Byte) (s : State) :
    hostWriteReg n v s = .refused .hostRegisterOutOfRange := if_neg hn.not_ge

/-- Settles O44: the host's writes are plain stores. -/
theorem hostKeepsInvariant : Obligations.HostKeepsInvariant := by
  intro s h
  refine ⟨fun iram op hiram hin => resetCore_inv h ⟨hiram, hin⟩ op, fun n v t ht => ?_, writeDptr_inv h⟩
  by_cases hn : n ≤ 7
  · obtain rfl := Host.Outcome.next.inj ((hostWriteReg_of_le hn v s).symm.trans ht)
    exact writeIram_inv h _ _
  · cases (hostWriteReg_of_gt (not_le.mp hn) v s).symm.trans ht

/-- Settles O56: the reset operation is one record update. -/
theorem resetKeepsPlatform : Obligations.ResetKeepsPlatform := fun _ _ _ =>
  ⟨rfl, rfl, rfl, rfl, rfl, rfl, rfl, rfl, rfl, rfl⟩

/-- Settles O57: the accessors are the register accessors, whose address is `regAddr`. -/
theorem hostRegisterAccess : Obligations.HostRegisterAccess := by
  intro s n
  refine ⟨fun hn => ?_, fun hn => ⟨if_neg hn.not_ge, fun v => hostWriteReg_of_gt hn v s⟩⟩
  have hnum : (BitVec.ofNat 3 n).toNat = n := Nat.mod_eq_of_lt (Nat.lt_succ_of_le hn)
  refine ⟨regAddr s (BitVec.ofNat 3 n), by rw [regAddr_toNat, hnum], if_pos hn, fun v => ?_⟩
  exact ⟨_, hostWriteReg_of_le hn v s, readIram_writeIram_same s _ v, readIram_writeIram_other s _ v, rfl⟩

/-- Settles O58: the accessors are a read and a write of the data pointer. -/
theorem hostDptrRoundTrip : Obligations.HostDptrRoundTrip := by
  intro w s
  obtain ⟨hhigh, hlow⟩ := writeDptr_bytes_toNat w s
  exact ⟨readDptr_writeDptr s w, hhigh, hlow, readIram_writeDptr_other w s, rfl⟩

end Sys2Proof.Machine
end

section
/-! PROOFS. The statements about byte memories (20_memory.md sections 1 and 4): a canonical memory is what its reads say,
a load of consecutive bytes, and what the code-fetch port and the decoder make of loaded bytes. -/

namespace Sys2Proof.Machine

/-! ### A canonical memory is its reads -/

namespace Memory

/-- A listed byte is what its address reads as. -/
theorem read_of_mem {m : Memory} {c : Host.Cell} (hm : m.Pairwise fun c d => c.1 < d.1) (hc : c ∈ m) :
    m.read c.1 = c.2 := by
  induction m with
  | nil => simp at hc
  | cons d rest ih =>
    obtain ⟨hlt, hrest⟩ := List.pairwise_cons.mp hm
    obtain rfl | hc := List.mem_cons.mp hc
    · rw [read_cons, if_pos rfl]
    · rw [read_cons, if_neg (hlt c hc).ne, ih hrest hc]

/-- An address that reads as another byte than an unlisted one is listed with that byte. -/
theorem mem_of_read_ne_unlisted {m : Memory} {a : Nat} (h : m.read a ≠ unlisted) : (a, m.read a) ∈ m := by
  induction m with
  | nil => exact absurd rfl h
  | cons d rest ih =>
    rw [read_cons] at h ⊢
    split at h
    · next hd => rw [if_pos hd, ← hd]; exact List.mem_cons_self
    · next hd => rw [if_neg hd]; exact List.mem_cons_of_mem _ (ih h)

/-- What a canonical memory lists, by its reads: the nonzero bytes. -/
theorem mem_iff_read {m : Memory} (hm : m.wf) (c : Host.Cell) : c ∈ m ↔ m.read c.1 = c.2 ∧ c.2 ≠ unlisted := by
  refine ⟨fun hc => ⟨read_of_mem hm.1 hc, hm.2 c hc⟩, fun ⟨hread, hne⟩ => ?_⟩
  rw [← hread] at hne
  simpa [hread] using mem_of_read_ne_unlisted hne

end Memory

/-- Settles O41: both memories list the same cells, and there is one rising list of them. -/
theorem canonicalMemoryIsItsReads : Obligations.CanonicalMemoryIsItsReads := by
  intro m m' hm hm' hreads
  have hirrefl : Std.Irrefl fun c d : Host.Cell => c.1 < d.1 := ⟨fun c => lt_irrefl c.1⟩
  have hantisymm : Std.Antisymm fun c d : Host.Cell => c.1 < d.1 := ⟨fun c d h h' => absurd h h'.asymm⟩
  refine hm.1.eq_of_mem_iff hm'.1 fun c => ?_
  rw [Memory.mem_iff_read hm, Memory.mem_iff_read hm', hreads]

/-! ### Consecutive bytes -/

namespace Memory

/-- A write of several bytes leaves every lower address alone. -/
theorem read_writeBytes_of_lt (m : Memory) {a b : Nat} (vs : List Byte) (h : b < a) :
    (m.writeBytes a vs).read b = m.read b := by
  induction vs generalizing m a with
  | nil => rfl
  | cons v rest ih => rw [writeBytes, ih _ (Nat.lt_succ_of_lt h), read_write_other _ _ _ _ h.ne]

/-- A write of several bytes puts them at ascending addresses. -/
theorem read_writeBytes (m : Memory) (a : Nat) (vs : List Byte) {k : Nat} (hk : k < vs.length) :
    (m.writeBytes a vs).read (a + k) = vs[k] := by
  induction vs generalizing m a k with
  | nil => simp at hk
  | cons v rest ih =>
    cases k with
    | zero => rw [writeBytes, add_zero, read_writeBytes_of_lt _ _ a.lt_succ_self, read_write_same, List.getElem_cons_zero]
    | succ k =>
      have haddr : a + (k + 1) = a + 1 + k := by omega
      rw [writeBytes, haddr, ih _ _ (Nat.lt_of_succ_lt_succ hk), List.getElem_cons_succ]

/-- Two writes of bytes, the second where the first ended, are one. -/
theorem writeBytes_append (m : Memory) (a : Nat) (vs ws : List Byte) :
    m.writeBytes a (vs ++ ws) = (m.writeBytes a vs).writeBytes (a + vs.length) ws := by
  induction vs generalizing m a with
  | nil => rfl
  | cons v rest ih =>
    have haddr : a + (rest.length + 1) = a + 1 + rest.length := by omega
    rw [List.cons_append, writeBytes, ih, writeBytes, List.length_cons, haddr]

end Memory

/-! ### The code-fetch port -/

theorem codeFetch_of_le {s : State} {addr : Word} {n : Nat} (h : addr.toNat + n ≤ s.codeLen) :
    codeFetch s addr n = some ((List.range n).map fun k => s.code.read (addr.toNat + k)) := if_neg h.not_gt

/-- Settles O19, by whether the request ends past the bound. -/
theorem codeFetchIsAllOrNothing : Obligations.CodeFetchIsAllOrNothing := by
  refine fun s addr n => ⟨fun h => if_pos h, fun h => ⟨_, codeFetch_of_le h, ?_, fun k hk => ?_⟩⟩
  · rw [List.length_map, List.length_range]
  · rw [List.getElem?_map, List.getElem?_range hk, Option.map_some]

/-- The port delivers bytes of a load that lies inside the bound. -/
theorem codeFetch_of_writeBytes {s : State} {m : Memory} {a k n : Nat} {vs : List Byte} {addr : Word}
    (hcode : s.code = m.writeBytes a vs) (haddr : addr.toNat = a + k) (hlen : k + n ≤ vs.length)
    (hbound : addr.toNat + n ≤ s.codeLen) : codeFetch s addr n = some ((vs.drop k).take n) := by
  rw [codeFetch_of_le hbound, hcode, haddr]
  refine congrArg some (List.ext_getElem ?_ fun j hj hj' => ?_)
  · rw [List.length_map, List.length_range, List.length_take, List.length_drop]
    omega
  · have hjn : j < n := by simpa using hj
    rw [List.getElem_map, List.getElem_range, List.getElem_take, List.getElem_drop, Nat.add_assoc,
      Memory.read_writeBytes _ _ _ (by omega)]

/-! ### The owner's load -/

/-- The decoder needs no more operand bytes than the instruction has. -/
theorem decode_take_operands {op : Byte} {ops rest : List Byte} {i : Instr} (h : decode (op :: ops) = .ok (i, rest)) :
    decode (op :: ops.take (operandLength i)) = .ok (i, []) := by
  have hbytes : op :: ops = encode i ++ rest := encodeInvertsDecode _ _ _ h
  have henc : encode i = op :: ops.take (operandLength i) := by
    rw [← List.take_left (l₁ := encode i) (l₂ := rest), ← hbytes, encode_length, Nat.add_comm, List.take_succ_cons]
  rw [← henc, ← List.append_nil (encode i)]
  exact decodeInvertsEncode i []

/-- A word that `decodeTableWord` reads is three bytes that decode. -/
theorem decode_of_decodeTableWord {nbits w : Nat} {i : Instr} (h : decodeTableWord nbits w = some i) :
    ∃ rest, decode (tableWordBytes nbits w) = .ok (i, rest) := by
  unfold decodeTableWord at h
  split at h
  · next rest hdec => exact ⟨rest, Option.some.inj h ▸ hdec⟩
  · simp at h

/-- A table word is three bytes. -/
theorem exists_tableWordBytes (nbits w : Nat) : ∃ x y z, tableWordBytes nbits w = [x, y, z] := ⟨_, _, _, rfl⟩

/-- Below the end of the code space the address behind `pc` does not wrap. -/
theorem toNat_pc_succ {pc : Word} (h : pc.toNat ≤ 0xFFFD) : (pc + 1).toNat = pc.toNat + 1 :=
  toNat_advance (L := 0) (by omega)

/-- Up to 0xFFFD the load is one write of three bytes at `pc`, inside the bound. -/
theorem withFetchWord_code {s : State} (hpc : s.pc.toNat ≤ 0xFFFD) (nbits w : Nat) :
    (s.withFetchWord nbits w).code = s.code.writeBytes s.pc.toNat (tableWordBytes nbits w) ∧
    s.pc.toNat + 3 ≤ (s.withFetchWord nbits w).codeLen := by
  constructor
  · have hload := Memory.writeBytes_append s.code s.pc.toNat ((tableWordBytes nbits w).take 1)
      ((tableWordBytes nbits w).drop 1)
    rw [List.take_append_drop] at hload
    rw [hload, State.withFetchWord, toNat_pc_succ hpc]
    rfl
  · simp only [State.withFetchWord, Config.maxCodeLen]
    omega

/-- An operand fetch, if the port delivers the bytes behind the opcode; without operand bytes the port is not asked. -/
theorem fetchOperands_of_codeFetch {s : State} {ops : List Byte} {L : Nat}
    (h : codeFetch s (s.pc + 1) L = some (ops.take L)) : fetchOperands s L = some (ops.take L) := by
  by_cases hL : L = 0
  · rw [fetchOperands, if_pos hL, hL, List.take_zero]
  · rw [fetchOperands, if_neg hL, h]

/-- Settles O20: the load writes the word's bytes at `pc`, where both fetches find them. -/
theorem loadedWordIsFetched : Obligations.LoadedWordIsFetched := by
  intro s nbits w i hi hpc
  obtain ⟨rest, hdec⟩ := decode_of_decodeTableWord hi
  obtain ⟨hcode, hbound⟩ := withFetchWord_code hpc nbits w
  have htwo : operandLength i ≤ 2 := operandLength_le_two i
  have hpc' : (s.withFetchWord nbits w).pc = s.pc := rfl
  have hnext : (s.pc + 1).toNat = s.pc.toNat + 1 := toNat_pc_succ hpc
  obtain ⟨x, y, z, hbytes⟩ := exists_tableWordBytes nbits w
  rw [hbytes] at hcode hdec ⊢
  refine ⟨rfl, x, ?_, fetchOperands_of_codeFetch ?_, decode_take_operands hdec⟩
  · exact codeFetch_of_writeBytes (k := 0) hcode rfl (by simp) (by rw [hpc']; omega)
  · exact codeFetch_of_writeBytes (k := 1) hcode hnext (by simp; omega) (by rw [hpc', hnext]; omega)

end Sys2Proof.Machine
end

section
/-! PROOFS. The statements about the opcode map (30_encoding.md sections 3 and 4): which opcodes are rejected, and words
written out from the patterns. -/

namespace Sys2Proof

/-- The decoder rejects an opcode exactly if it has no descriptor (rule R82); what follows it plays no part (rule R74). -/
theorem decode_eq_undefinedOpcode_iff (op : Byte) (rest : List Byte) :
    decode (op :: rest) = .error (.undefinedOpcode op) ↔ desc op = none := by
  cases hd : desc op with
  | none => simp only [decode, hd]
  | some d =>
    rw [decode_of_desc hd]
    split <;> simp

/-- Settles O3: the decoder asks whether there is a descriptor, which is looked up for each of the 256 opcodes. -/
theorem opcodeRejectedExactlyIfUndefined : Obligations.OpcodeRejectedExactlyIfUndefined := by
  intro op rest
  rw [decode_eq_undefinedOpcode_iff]
  revert op
  decide

/-- Settles O5: each word is the encoding of what it stands for. -/
theorem specWordsDecode : Obligations.SpecWordsDecode :=
  ⟨decodeInvertsEncode (.ljmp 0x1234) [], decodeInvertsEncode (.djnz 2 0xFE) [],
    decodeInvertsEncode (.movDirectImm 0x80 0xAA) [], decodeInvertsEncode (.movRiA 1) [],
    decodeInvertsEncode (.setbBit 0x30) []⟩

end Sys2Proof
end

section
/-! PROOFS. The statements about `CodeOutOfRange` (60_exceptions.md section 1) and about rest (70_reset_and_hazards.md
section 5): where a step raises the code, and that a jump to itself changes nothing but `OP`. -/

namespace Sys2Proof.Machine

open Sys2Proof.Safety

/-! ### Where `CodeOutOfRange` is raised -/

/-- The stages before the handler raise `CodeOutOfRange` exactly where a fetch fails: that of the opcode, or that of a
defined opcode's operands (rule R171; decisions D8 to D10). -/
theorem frontEnd_eq_error_codeOutOfRange_iff {s : State} (he : s.err = .ok) :
    frontEnd s = .error .codeOutOfRange ↔ s.codeLen ≤ s.pc.toNat ∨
      (s.pc.toNat < s.codeLen ∧ ∃ d, desc (s.code.read s.pc.toNat) = some d ∧ d.operandLength ≠ 0 ∧
        s.codeLen < (s.pc.toNat + 1) % 65536 + d.operandLength) := by
  simp only [← fetchOperands_eq_none_iff]
  by_cases hpc : s.pc.toNat < s.codeLen
  · have hop : codeFetch s s.pc 1 = some [s.code.read s.pc.toNat] := by rw [codeFetch_one, if_pos hpc]
    cases hd : desc (s.code.read s.pc.toNat) with
    | none => simp [frontEnd, he, hop, hd, hpc]
    | some d => cases hops : fetchOperands s d.operandLength <;> simp [frontEnd, he, hop, hd, hops, hpc]
  · simp [frontEnd, he, codeFetch_one, hpc, not_lt.mp hpc]

/-- Settles O10: the opcode fetch fails, so stage 2 raises and nothing else happens. -/
theorem opcodeFetchPastBoundStops : Obligations.OpcodeFetchPastBoundStops := by
  intro s he hbound
  rw [step_of_frontEnd_error ((frontEnd_eq_error_codeOutOfRange_iff he).mpr (.inl hbound)), raise_eq]

/-- The end of a step above the overflow threshold raises (rule R96; decision D11). -/
theorem finishStep_of_overflow {L : Nat} {u : State} (h : 0xFFFF < u.pc.toNat + 1 + L) :
    finishStep L u = raise .codeOutOfRange u := if_pos h

/-- The end of a step that answers `CodeOutOfRange`, from `ERR = OK`, lies above the overflow threshold. -/
theorem overflow_of_finishStep_err {L : Nat} {u : State} (he : u.err = .ok)
    (h : (finishStep L u).err = .codeOutOfRange) : 0xFFFF < u.pc.toNat + 1 + L := by
  obtain ⟨hover, -⟩ | ⟨-, -, hfin⟩ | ⟨-, -, hfin⟩ := finishStep_cases u L
  · exact hover
  · simp [hfin, he] at h
  · simp [hfin, he] at h

/-- Settles O15: `raise` is applied to what the handler left. -/
theorem overflowAfterHandlerKeepsItsEffects : Obligations.OverflowAfterHandlerKeepsItsEffects := by
  intro s u i ops he hfetch hu hover
  rw [step_of_exec he hfetch hu, finishStep_of_overflow hover, raise_eq]

/-- Settles O13, by the ways a step can go: an error entry before the handler is a failed fetch, one after it is an
overflow, and each of them raises. -/
theorem codeOutOfRangeInThreePlaces : Obligations.CodeOutOfRangeInThreePlaces := by
  intro s t he hstep
  rw [← or_assoc, ← frontEnd_eq_error_codeOutOfRange_iff he]
  constructor
  · intro ht
    obtain ⟨hne, -⟩ | ⟨e, -, hf, rfl⟩ | ⟨i, ops, u, -, hfetch, hu, rfl⟩ := step_cases hstep
    · exact absurd he hne
    · obtain rfl : e = .codeOutOfRange := ht
      exact .inl hf
    · exact .inr ⟨i, ops, u, hfetch, hu, overflow_of_finishStep_err ((exec_err hu).trans he) ht⟩
  · rintro (hf | ⟨i, ops, u, hfetch, hu, hover⟩)
    · obtain rfl := Host.Outcome.next.inj ((step_of_frontEnd_error hf).symm.trans hstep)
      rfl
    · have hraise := overflowAfterHandlerKeepsItsEffects s u i ops he hfetch hu hover
      obtain rfl := Host.Outcome.next.inj (hraise.symm.trans hstep)
      rfl

/-! ### Rest -/

/-- Storing the same operand bytes a second time changes nothing. -/
theorem storeOperands_idem (ops : List Byte) (s : State) :
    storeOperands ops (storeOperands ops s) = storeOperands ops s := by
  have hgetD (k : Nat) (x : Byte) : ops.getD k (ops.getD k x) = ops.getD k x := by
    cases h : ops[k]? <;> simp [h]
  simp only [storeOperands_eq, hgetD]

/-- The offset 0xFE is -2, which leads back to the jump itself (rule R114). -/
theorem relTarget_self (pc : Word) : relTarget pc 0xFE = pc := by
  have hback : (2 : Word) + sext16 0xFE = 0 := by decide
  rw [relTarget, BitVec.add_assoc, hback, add_zero]

/-- The handler of a jump to itself. -/
theorem exec_self_jump {i : Instr} {s : State} (hself : i = .ljmp s.pc ∨ i = .sjmp 0xFE) :
    exec i s = .next (jump s.pc s) := by
  obtain rfl | rfl := hself
  · rfl
  · exact congrArg (fun target => Host.Outcome.next (jump target s)) (relTarget_self s.pc)

/-- A jump to `pc` itself, with `JF` cleared behind it, changes nothing. -/
theorem setJf_jump_self {s : State} (hjf : s.jf = false) : (jump s.pc s).setJf false = s := by
  rw [jump_eq, State.setJf, ← hjf]

/-- A step of a jump to itself leaves its operand bytes in `OP` and changes nothing else. -/
theorem step_self_jump {s : State} {i : Instr} {ops : List Byte} (he : s.err = .ok) (hjf : s.jf = false)
    (hfetch : FetchesAs s ops i) (hself : i = .ljmp s.pc ∨ i = .sjmp 0xFE)
    (hbound : s.pc.toNat + 1 + operandLength i ≤ 0xFFFF) : step s = .next (storeOperands ops s) := by
  have hu : exec i (storeOperands ops s) = .next (jump s.pc (storeOperands ops s)) :=
    exec_self_jump (s := storeOperands ops s) hself
  obtain ⟨t, hstep, -, -, hkeep⟩ := pcUpdateAfterHandler s _ i ops he hfetch hu hbound
  rw [hstep, hkeep rfl]
  exact congrArg Host.Outcome.next (setJf_jump_self (s := storeOperands ops s) hjf)

/-- Settles O54: the state after the first step is again at the jump to itself, with the operand bytes in `OP` already. -/
theorem selfJumpRests : Obligations.SelfJumpRests := by
  intro s i ops he hjf hfetch hself hbound
  refine ⟨step_self_jump he hjf hfetch hself hbound, ?_⟩
  have hagain := step_self_jump (s := storeOperands ops s) he hjf hfetch hself hbound
  rwa [storeOperands_idem] at hagain

end Sys2Proof.Machine
end

section
/-! PROOFS. The statements about `DJNZ` (41_nop_and_jumps.md), `INC DPTR` (43_alu_and_bit.md) and the stores without an
event that they share (20_memory.md section 7): one execution, repeated executions, and the hooked store they agree with. -/

namespace Sys2Proof.Machine

open Sys2Proof.Safety

/-! ### Repeated executions -/

/-- Repeated executions begin with the first. -/
theorem execTimes_succ {i : Instr} {s u : State} (h : exec i s = .next u) (k : Nat) :
    execTimes i (k + 1) s = execTimes i k u := by
  simp only [execTimes, h]

/-! ### `DJNZ` -/

/-- The count reaches zero exactly from 1. -/
theorem sub_one_eq_zero_iff (v : Byte) : v - 1#8 = 0#8 ↔ v = 1 := by bv_omega

/-- The decrement is modulo 256 (rule R113). -/
theorem toNat_sub_one (v : Byte) : (v - 1#8).toNat = (v.toNat + 255) % 256 := by
  rw [BitVec.toNat_sub, Nat.add_comm]
  rfl

/-- In both cases the handler of `DJNZ` makes of IRAM what a write of the register does. -/
theorem djnz_iram {n : BitVec 3} {rel : Byte} {s t : State} (h : exec (.djnz n rel) s = .next t) (b : Byte) :
    readIram t b = if b = regAddr s n then readReg s n - 1#8 else readIram s b := by
  rw [← readIram_writeIram]
  by_cases hz : readReg s n - 1#8 = 0#8
  · obtain rfl := Host.Outcome.next.inj ((djnz_of_zero hz rel).1.symm.trans h)
    rw [hz]
    rfl
  · obtain rfl := Host.Outcome.next.inj ((djnz_of_ne_zero hz rel).1.symm.trans h)
    rfl

/-- Settles O24, by whether the register counts down to zero. -/
theorem djnzResult : Obligations.DjnzResult := by
  intro n rel s
  obtain ⟨t, ht⟩ := exec_answers_next (.djnz n rel) s
  have hiram := djnz_iram ht
  refine ⟨t, ht, by rw [hiram, if_pos rfl]; exact toNat_sub_one _, fun b hb => by rw [hiram, if_neg hb], ?_, ?_⟩
  · intro hone
    have hz : readReg s n - 1#8 = 0#8 := (sub_one_eq_zero_iff _).mpr hone
    obtain rfl := Host.Outcome.next.inj ((djnz_of_zero hz rel).1.symm.trans ht)
    rfl
  · intro hone
    have hz : readReg s n - 1#8 ≠ 0#8 := mt (sub_one_eq_zero_iff _).mp hone
    obtain rfl := Host.Outcome.next.inj ((djnz_of_ne_zero hz rel).1.symm.trans ht)
    exact ⟨rfl, relTarget_toNat s.pc rel⟩

/-- No handler moves a register: none of them writes the bank. -/
theorem exec_regAddr {i : Instr} {s t : State} (h : exec i s = .next t) (n : BitVec 3) :
    regAddr t n = regAddr s n := by
  obtain ⟨a, pc, jf, iram, xdata, trace, hexec⟩ := exec_frame i s
  obtain rfl := Host.Outcome.next.inj (hexec.symm.trans h)
  rfl

/-- After `DJNZ` its register holds one less. -/
theorem djnz_readReg {n : BitVec 3} {rel : Byte} {s t : State} (h : exec (.djnz n rel) s = .next t) :
    readReg t n = readReg s n - 1#8 := by
  rw [readReg, exec_regAddr h, djnz_iram h, if_pos rfl]

/-- `DJNZ` falls through exactly from 1. -/
theorem djnz_jumpTarget_eq_none_iff (n : BitVec 3) (rel : Byte) (s : State) :
    jumpTarget (.djnz n rel) s = none ↔ readReg s n = 1 := by
  rw [← sub_one_eq_zero_iff]
  by_cases hz : readReg s n - 1#8 = 0#8
  · exact iff_of_true (djnz_of_zero hz rel).2 hz
  · exact iff_of_false (by rw [(djnz_of_ne_zero hz rel).2]; nofun) hz

/-- Settles O35, by induction on the number of executions: each leaves one less in the register, and one execution
fewer to go. -/
theorem djnzCountsDown : Obligations.DjnzCountsDown := by
  intro n rel s k hk
  induction k generalizing s with
  | zero => exact ⟨s, rfl, rfl, by rw [djnz_jumpTarget_eq_none_iff]; bv_omega⟩
  | succ k ih =>
    obtain ⟨u, hu⟩ := exec_answers_next (.djnz n rel) s
    have hcount : (readReg u n).toNat = (readReg s n).toNat - 1 := by
      rw [djnz_readReg hu, toNat_sub_one]
      omega
    obtain ⟨t, ht, hreg, hfall⟩ := ih u (by omega)
    exact ⟨t, (execTimes_succ hu k).trans ht, by omega, hfall.trans (by omega)⟩

/-! ### `INC DPTR` -/

/-- The handler of `INC DPTR` is a write of the data pointer (rule R150). -/
theorem exec_incDptr (s : State) : exec .incDptr s = .next (writeDptr (readDptr s + 1) s) := rfl

/-- Settles O34, by induction on the number of executions: each is a write of the data pointer, one more. -/
theorem incDptrRepeated : Obligations.IncDptrRepeated := by
  intro k
  induction k with
  | zero =>
    intro s
    exact ⟨s, rfl, (Nat.mod_eq_of_lt (readDptr s).isLt).symm, fun _ _ _ => rfl, rfl⟩
  | succ k ih =>
    intro s
    obtain ⟨t, ht, hdptr, hothers, hframe⟩ := ih (writeDptr (readDptr s + 1) s)
    refine ⟨t, (execTimes_succ (exec_incDptr s) k).trans ht, ?_, fun b hh hl => ?_, hframe⟩
    · have hone : (1 : Word).toNat = 1 := rfl
      rw [hdptr, readDptr_writeDptr, BitVec.toNat_add, hone]
      omega
    · rw [hothers b hh hl, readIram_writeDptr_other _ _ b hh hl]

/-- Settles O31: it is the case of one execution. -/
theorem incDptrResult : Obligations.IncDptrResult := by
  intro s
  obtain ⟨t, ht, hdptr, hrest⟩ := incDptrRepeated 1 s
  rw [readDptr_toNat, readDptr_toNat] at hdptr
  exact ⟨t, ht, hdptr, hrest⟩

/-! ### Stores without an event -/

/-- Without a hook at its address, a hooked store is a plain store. -/
theorem directStore_of_notMem {a : Byte} {s : State} (h : a ∉ s.whook) (v : Byte) :
    directStore a v s = writeIram a v s := by
  rw [directStore, notifyHook, if_neg h]

/-- Register addresses lie below 0x20: four banks of eight. -/
theorem regAddr_le (s : State) (n : BitVec 3) : (regAddr s n).toNat ≤ 0x1F := by
  have hn := n.isLt
  rw [regAddr_toNat]
  omega

/-- Settles O38: the guard leaves no hook at the address of a register or of a byte of the data pointer. -/
theorem unhookedStoresAgreeUnderGuard : Obligations.UnhookedStoresAgreeUnderGuard := by
  intro s hguard
  have hreg (n : BitVec 3) : regAddr s n ∉ s.whook := fun h => (hguard _ h).1.not_ge (regAddr_le s n)
  have hdph : dphAddr ∉ s.whook := fun h => (hguard _ h).2.1 rfl
  have hdpl : dplAddr ∉ s.whook := fun h => (hguard _ h).2.2 rfl
  refine ⟨fun n v => (directStore_of_notMem (hreg n) v).symm, fun w => ?_⟩
  have hhigh : directStore 0x82 (hi8 w) s = writeIram dphAddr (hi8 w) s := directStore_of_notMem hdph _
  rw [hhigh]
  exact (directStore_of_notMem (s := writeIram dphAddr (hi8 w) s) hdpl (lo8 w)).symm

end Sys2Proof.Machine
end
